-- ==== Sys2Proof/Word.lean ====
section
/-! DEFINITION. The widths the block moves (spec/20_memory.md R45): 8-bit bytes on port F, 16-bit header and code or
sequence fields, 32-bit configuration data and samples, 64-bit output beats. -/

namespace Sys2Proof

/-- One byte of a frame: the 8-bit payload of one beat of port F (R45, R72). -/
abbrev Byte := BitVec 8

/-- A 16-bit field of a frame: the header word, a control-item code or a sequence number (R10, R45). -/
abbrev Half := BitVec 16

/-- A 32-bit word: configuration data, a latched bit depth, a sample (R45). -/
abbrev Word := BitVec 32

/-- The 64-bit payload of one output beat (R45, R67). -/
abbrev Dword := BitVec 64

end Sys2Proof
end

