-- ==== Sys2Proof/Config.lean ====
section
/-! DEFINITION. The parameters of the block (spec/00_scope.md R9) and the free values of the model. A constant declared
`opaque` has no body: nothing proves what it is, so a statement about it holds for every value the spec admits. -/

namespace Sys2Proof

/-- The parameters a model takes as arguments (R9, R26): the set of known control-item codes, the "none" sentinel
reported for data frames, and whether samples are sign-extended. -/
structure Params where
  knownCodes : List Half
  codeNone : Half
  sampleSigned : Bool
  deriving DecidableEq, Repr

/-- R103: the code check is membership of `KNOWN_CODES`. -/
def Params.knows (P : Params) (code : Half) : Bool := P.knownCodes.contains code

/-- The constraints 92_eei_decisions.md D3 puts on `KNOWN_CODES`: 9999 is outside, `CODE_NONE` and the
receiver-state code are inside. -/
abbrev Params.Admissible (P : Params) (receiverState : Half) : Prop :=
  (9999 : Half) ∉ P.knownCodes ∧ P.codeNone ∈ P.knownCodes ∧ receiverState ∈ P.knownCodes

/-- The `i`-th 16-bit value among those other than 9999. Every admissible code is one of them (D3), so a free index
is a free admissible code. -/
def Config.codeAt (i : Fin 65535) : Half :=
  if i.val < 9999 then BitVec.ofNat 16 i.val else BitVec.ofNat 16 (i.val + 1)

/-- FREE: which code is `CODE_NONE` (D4, OPEN). -/
opaque Config.codeNoneIndex : Fin 65535

/-- FREE: which code is the receiver-state code (D3, OPEN). -/
opaque Config.receiverStateIndex : Fin 65535

/-- FREE: which further codes are known (D3, OPEN). -/
opaque Config.otherCodeIndices : List (Fin 65535)

/-- The receiver-state code, a member of `KNOWN_CODES` (D3). -/
def Config.receiverStateCode : Half := Config.codeAt Config.receiverStateIndex

/-- The parameters of this hardware. `KNOWN_CODES` and `CODE_NONE` are open (log 1); `SAMPLE_SIGNED` is false
(R9, D6; log 2). One set of values holds for every instance (DEDUCED from R9, R26; log 1). -/
def Config.params : Params where
  knownCodes := Config.codeAt Config.codeNoneIndex :: Config.receiverStateCode ::
    Config.otherCodeIndices.map Config.codeAt
  codeNone := Config.codeAt Config.codeNoneIndex
  sampleSigned := false

/-- FREE: where the platform places the configuration port in a system's address space (R48, log 24). The block itself
sees register offsets only. The argument is the instance's number: R48 names one `CFG_BASE` and does not say how the ports
of several instances lie, so each has a base of its own and nothing relates two of them (DESIGN CHOICE, log 24). -/
opaque Config.cfgBase : Nat → Nat

/-- FREE (DESIGN CHOICE, log 8): while port O holds beats, whether the block's buffering has room for more. R162: "A model
admits every amount of buffering from 0 upward." The arguments are the instance's number, so that no two instances share
their buffering (R50, R182; log 20), the number of the decision, and how many beats port O holds. -/
opaque Config.outputRoom : Nat → Nat → Nat → Bool

/-- FREE (DESIGN CHOICE, log 4): what `hdr_lo` holds after a RESET operation ("unspecified", R27). The arguments are the
instance's number and the number of the free value. -/
opaque Config.hdrLoAfterReset : Nat → Nat → Byte

/-- FREE (DESIGN CHOICE, log 4): what `word` holds after a RESET operation ("unspecified", R27). The arguments are the
instance's number and the number of the free value. -/
opaque Config.wordAfterReset : Nat → Nat → Half

/-- FREE (DESIGN CHOICE, log 4): what `fld_lo` holds after a RESET operation ("unspecified", R27). The arguments are the
instance's number and the number of the free value. -/
opaque Config.fldLoAfterReset : Nat → Nat → Byte

/-- FREE (DESIGN CHOICE, log 4): what `d_lat` holds after a RESET operation ("unspecified", R27). The arguments are the
instance's number and the number of the free value. -/
opaque Config.dLatAfterReset : Nat → Nat → Word

/-- FREE (DESIGN CHOICE, log 4): what `w` holds after a RESET operation ("unspecified", R27). The arguments are the
instance's number and the number of the free value. -/
opaque Config.wAfterReset : Nat → Nat → BitVec 3

end Sys2Proof
end

