-- ==== Sys2Proof/Syntax.lean ====
section
/-! DEFINITION. The block's operations as syntax: one constructor of `Instr` for each row of spec/opcode_table.json
(spec/00_scope.md R3), and the form in which a port, or the chain inside the block, carries one. -/

namespace Sys2Proof

/-- What a frame holds after its 2-byte header (R60, R65): nothing, one byte (no complete field), or the 16-bit code
or sequence field with the body. -/
inductive Tail where
  | empty
  | part (lo : Byte)
  | fields (field : Half) (body : List Byte)
  deriving DecidableEq, Repr

/-- A data-item frame whose decode status is OK, as the sample extractor receives it (R64, R141). `sub` is the data
item number, so its type is 4 + sub. -/
structure DataItem where
  sub : BitVec 2
  declLen : BitVec 13
  seq : Half
  body : List Byte
  deriving DecidableEq, Repr

/-- The operations of the block (R3): eight frame decodes, five extraction classes, configuration write and read, and
reset. -/
inductive Instr where
  /-- DEC_SET_CI, R105: type 0. -/
  | decSetCi (declLen : BitVec 13) (tail : Tail)
  /-- DEC_GET_CI, R106: type 1. -/
  | decGetCi (declLen : BitVec 13) (tail : Tail)
  /-- DEC_CI_RANGE, R107: type 2. -/
  | decCiRange (declLen : BitVec 13) (tail : Tail)
  /-- DEC_ACK, R108: type 3. -/
  | decAck (declLen : BitVec 13) (tail : Tail)
  /-- DEC_DATA0, R109: type 4. -/
  | decData0 (declLen : BitVec 13) (tail : Tail)
  /-- DEC_DATA1, R110: type 5. -/
  | decData1 (declLen : BitVec 13) (tail : Tail)
  /-- DEC_DATA2, R111: type 6. -/
  | decData2 (declLen : BitVec 13) (tail : Tail)
  /-- DEC_DATA3, R112: type 7. -/
  | decData3 (declLen : BitVec 13) (tail : Tail)
  /-- EXT_W1, R136: latched depth 1..8. -/
  | extW1 (depth : Word) (item : DataItem)
  /-- EXT_W2, R137: latched depth 9..16. -/
  | extW2 (depth : Word) (item : DataItem)
  /-- EXT_W3, R138: latched depth 17..24. -/
  | extW3 (depth : Word) (item : DataItem)
  /-- EXT_W4, R139: latched depth 25..32. -/
  | extW4 (depth : Word) (item : DataItem)
  /-- EXT_DEPTH_ERR, R140: latched depth 0 or above 32. -/
  | extDepthErr (depth : Word) (item : DataItem)
  /-- CFG_WR, R157. -/
  | cfgWr (off : BitVec 8) (v : Word)
  /-- CFG_RD, R158. -/
  | cfgRd (off : BitVec 8)
  /-- RESET, R190. -/
  | reset
  deriving DecidableEq, Repr

/-- One operation as it is carried: a delimited frame on port F (R72, R151), an access on port C (R73), an OK data
frame handed to the extractor with the latched depth, the header word and the sequence field (R136 to R140: "selected
by CFG.BIT_DEPTH, not by frame bits"), or the reset input. -/
inductive Transfer where
  | frame (bytes : List Byte)
  | config (write : Bool) (addr : BitVec 8) (wdata : Word)
  | extract (depth : Word) (word : Half) (field : Half) (body : List Byte)
  | rst
  deriving DecidableEq, Repr

/-- Why a transfer is no operation of the table. None of these stops the block: see `runTransfer`. -/
inductive DecodeError where
  /-- A frame of no bytes: R72, "a zero-byte frame cannot be presented". -/
  | emptyFrame
  /-- A frame of one byte: no header, so no message type (R91). -/
  | noHeader
  /-- Extraction of a frame whose type is not a data type (R141). -/
  | notDataItem
  deriving DecidableEq, Repr

end Sys2Proof
end

