-- ==== Sys2Proof/WellFormed.lean ====
section
/-! DEFINITION. Which terms of `Instr` stand for an operation of the block. The operand types bound every field but one:
an extraction class is selected by a range of bit depths (spec/42_sample_extract.md R136 to R140). -/

namespace Sys2Proof

/-- The depth of an extraction class lies in the class's range (R132, R136 to R140); every other operand is bounded by
its type. -/
def Instr.wellFormed : Instr → Bool
  | .decSetCi _ _ | .decGetCi _ _ | .decCiRange _ _ | .decAck _ _ => true
  | .decData0 _ _ | .decData1 _ _ | .decData2 _ _ | .decData3 _ _ => true
  | .extW1 d _ => 1 ≤ d.toNat && d.toNat ≤ 8
  | .extW2 d _ => 9 ≤ d.toNat && d.toNat ≤ 16
  | .extW3 d _ => 17 ≤ d.toNat && d.toNat ≤ 24
  | .extW4 d _ => 25 ≤ d.toNat && d.toNat ≤ 32
  | .extDepthErr d _ => d.toNat == 0 || 32 < d.toNat
  | .cfgWr _ _ | .cfgRd _ | .reset => true

end Sys2Proof
end

