-- ==== Sys2Proof/Decode.lean ====
section
/-! DEFINITION. Decoding a transfer into an operation, total and rejecting by name, and the encoder
(spec/30_encoding.md R60 to R65, R73 to R75; spec/40_header_unpack.md R90; the rows of spec/opcode_table.json). -/

namespace Sys2Proof

/-- R40, R74: two consecutive frame bytes as a 16-bit value, the lower offset holding the less significant byte. -/
def le16 (lo hi : Byte) : Half := lo.setWidth 16 ||| (hi.setWidth 16 <<< 8)

/-- R40: the byte of a 16-bit value at the lower offset. -/
def loByte (v : Half) : Byte := v.setWidth 8

/-- R40: the byte of a 16-bit value at the higher offset. -/
def hiByte (v : Half) : Byte := (v >>> 8).setWidth 8

/-- R61, R90: `word[15:13]`. -/
def msgType (word : Half) : BitVec 3 := word.extractLsb' 13 3

/-- R61, R90: `word[12:0]`. -/
def declaredLength (word : Half) : BitVec 13 := word.extractLsb' 0 13

/-- R92: the category of a type is its top bit. -/
def isDataType (t : BitVec 3) : Bool := t.getLsbD 2

/-- R61, R75: `(type << 13) | totalLength`. -/
def headerWord (t : BitVec 3) (len : BitVec 13) : Half := (t.setWidth 16 <<< 13) ||| len.setWidth 16

/-- R62: the type of data item `sub`, 4..7. -/
def dataType (sub : BitVec 2) : BitVec 3 := 4 ||| sub.setWidth 3

/-- R62, the message-type map: the operation a header's type selects. -/
def decodeHeader (word : Half) (tail : Tail) : Instr :=
  let len := declaredLength word
  match (msgType word).toNat with
  | 0 => .decSetCi len tail
  | 1 => .decGetCi len tail
  | 2 => .decCiRange len tail
  | 3 => .decAck len tail
  | 4 => .decData0 len tail
  | 5 => .decData1 len tail
  | 6 => .decData2 len tail
  | _ => .decData3 len tail

/-- R60, R65, R102: the bytes after the header, as one of the three forms of `Tail`. -/
def tailOf : List Byte → Tail
  | [] => .empty
  | [b] => .part b
  | lo :: hi :: body => .fields (le16 lo hi) body

/-- R136 to R140: the extraction class a latched depth selects. -/
def decodeDepth (depth : Word) (item : DataItem) : Instr :=
  let d := depth.toNat
  if d = 0 ∨ 32 < d then .extDepthErr depth item
  else if d ≤ 8 then .extW1 depth item
  else if d ≤ 16 then .extW2 depth item
  else if d ≤ 24 then .extW3 depth item
  else .extW4 depth item

/-- The operation a transfer carries, or the name of the reason why it carries none. -/
def decode : Transfer → Except DecodeError Instr
  | .frame [] => .error .emptyFrame
  | .frame [_] => .error .noHeader
  | .frame (lo :: hi :: rest) => .ok (decodeHeader (le16 lo hi) (tailOf rest))
  | .config true off v => .ok (.cfgWr off v)
  | .config false off _ => .ok (.cfgRd off)
  | .extract depth word field body =>
    if isDataType (msgType word) then
      .ok (decodeDepth depth ⟨(msgType word).setWidth 2, declaredLength word, field, body⟩)
    else .error .notDataItem
  | .rst => .ok .reset

/-- R60: the bytes of what follows a header. -/
def Tail.bytes : Tail → List Byte
  | .empty => []
  | .part b => [b]
  | .fields f body => loByte f :: hiByte f :: body

/-- R60, R61: the bytes of a frame of type `t`. -/
def frameBytes (t : BitVec 3) (len : BitVec 13) (tail : Tail) : List Byte :=
  loByte (headerWord t len) :: hiByte (headerWord t len) :: tail.bytes

/-- An OK data frame as the extractor receives it under a latched depth. -/
def extractTransfer (depth : Word) (item : DataItem) : Transfer :=
  .extract depth (headerWord (dataType item.sub) item.declLen) item.seq item.body

/-- The transfer that carries an operation (R60 to R64, R73, R83). `c_wdata` of a read is not looked at (R158); the
encoder sends 0 (log 18). -/
def encode : Instr → Transfer
  | .decSetCi len tail => .frame (frameBytes 0 len tail)
  | .decGetCi len tail => .frame (frameBytes 1 len tail)
  | .decCiRange len tail => .frame (frameBytes 2 len tail)
  | .decAck len tail => .frame (frameBytes 3 len tail)
  | .decData0 len tail => .frame (frameBytes 4 len tail)
  | .decData1 len tail => .frame (frameBytes 5 len tail)
  | .decData2 len tail => .frame (frameBytes 6 len tail)
  | .decData3 len tail => .frame (frameBytes 7 len tail)
  | .extW1 depth item => extractTransfer depth item
  | .extW2 depth item => extractTransfer depth item
  | .extW3 depth item => extractTransfer depth item
  | .extW4 depth item => extractTransfer depth item
  | .extDepthErr depth item => extractTransfer depth item
  | .cfgWr off v => .config true off v
  | .cfgRd off => .config false off 0
  | .reset => .rst

/-- The `n` bytes of the number `w`, least significant first. -/
def bytesOfNat : Nat → Nat → List Byte
  | 0, _ => []
  | n + 1, w => BitVec.ofNat 8 w :: bytesOfNat n (w / 256)

/-- The frame a row of spec/opcode_table.json stands for when its bits are `w` (log 12): the `nbits` bits of the table,
least significant byte first (R40), and zeros up to the four fixed bytes of a frame (R60). The body is empty. -/
def tableFrame (nbits w : Nat) : List Byte :=
  bytesOfNat (max 4 ((nbits + 7) / 8)) (w % 2 ^ nbits)

/-- The operation the decoder reads from the bits of an opcode-table row (log 12). -/
def decodeTableWord (nbits w : Nat) : Option Instr :=
  (decode (.frame (tableFrame nbits w))).toOption

end Sys2Proof
end

