-- ==== Sys2Proof/Machine/State.lean ====
section
/-! DEFINITION. The state of one block instance: the transaction-level pair (CFG, OQ) of spec/10_state.md R26, the
in-flight registers of R27 with the byte index of R21, and the ports' side. Plain data throughout. -/

namespace Sys2Proof.Machine

/-- The kinds of output beat (R68). The fourth code, 3, is reserved and never produced, so it has no constructor. -/
inductive BeatKind where
  | desc
  | body
  | sample
  deriving DecidableEq, Repr

/-- One beat of output port O (R67): `o_kind`, `o_data`, `o_nbytes`, `o_last`. -/
structure Beat where
  kind : BeatKind
  data : Dword
  nbytes : BitVec 3
  last : Bool
  deriving DecidableEq, Repr

/-- Which byte of the frame comes next (R27). -/
inductive Phase where
  | idle
  | hdr1
  | fld0
  | fld1
  | body
  | samples
  | discard
  deriving DecidableEq, Repr

/-- One beat of frame input port F (R72): `f_data` and `f_last`. -/
structure FBeat where
  data : Byte
  last : Bool
  deriving DecidableEq, Repr

/-- One access on configuration port C (R73): `c_write`, `c_addr`, `c_wdata`. -/
structure CAccess where
  write : Bool
  addr : BitVec 8
  wdata : Word
  deriving DecidableEq, Repr

/-- Which port moves at a step. R163: the events are "taken one at a time in any order the environment chooses"; the
order is the list `State.turns`. -/
inductive Turn where
  /-- `rst` is asserted (R190). -/
  | rst
  /-- Port C: the next access is accepted (R159). -/
  | config
  /-- Port F: the beats up to the next `f_last` are accepted as one event (R150, R163 `Frame`). -/
  | frame
  /-- Port F: the next beat is offered (R160, R162). -/
  | byte
  /-- Ports F and C in the same step (R28: the byte sees CFG as it was before the write). -/
  | byteWithConfig
  /-- Port O: the downstream accepts the head beat (R163 `Take`). -/
  | take
  deriving DecidableEq, Repr

/-- Everything the spec gives one instance, and the ports' side. -/
structure State where
  /-- CFG.BIT_DEPTH (R22). -/
  cfg : Word
  /-- OQ: beats produced and not yet accepted by the downstream, head first (R25). -/
  oq : List Beat
  /-- The phase of the byte-serial machine (R27). -/
  phase : Phase
  /-- How many bytes of the current frame were accepted so far (R21). It has no upper bound. -/
  idx : Nat
  /-- Frame byte 0 (R27). -/
  hdrLo : Byte
  /-- The header word (R27). -/
  word : Half
  /-- Frame byte 2 (R27). -/
  fldLo : Byte
  /-- The bit depth latched at the frame's first byte (R27, R28). -/
  dLat : Word
  /-- The chunk width of the current data frame (R27). -/
  w : BitVec 3
  /-- The sample being assembled (R27). -/
  acc : Word
  /-- How many bytes `acc` holds so far (R27). -/
  m : BitVec 3
  /-- Beats the upstream offers on port F, not yet accepted, in order (R72). -/
  fIn : List FBeat
  /-- Accesses offered on port C, not yet accepted, in order (R73). -/
  cIn : List CAccess
  /-- The model's own: which port moves at each step to come (log 6). -/
  turns : List Turn
  /-- The values port C has returned on `c_rdata`, oldest first (R73, R158; log 13). -/
  replies : List Word
  /-- The beats the downstream has accepted, oldest first (R163 `Take`; log 13). -/
  delivered : List Beat
  /-- The model's own: the number of the next free value (log 8). -/
  freeIx : Nat
  /-- The model's own: which of several instances this one is, so that each has free values of its own (log 20). No
  operation changes it and no port shows it: the block has no identifier (R182). -/
  instanceNo : Nat
  deriving DecidableEq, Repr

/-- Why a step faults: never. The block has no trap (R176), and nothing a frame contains can make it stop (R150), so the
type has no constructor (log 14). -/
inductive Fault where
  deriving DecidableEq, Repr

/-- Why an instruction has no meaning. -/
inductive Refusal where
  /-- Raised by an arm of `exec` whose instruction is not modelled yet. No arm raises it now. Safe: the model stops. -/
  | notModelled (mnemonic : String)
  deriving DecidableEq, Repr

/-- The block right after reset (R31, R190): CFG 0, OQ empty, phase IDLE, acc and m 0, no byte of a frame accepted. The
registers R27 leaves unspecified (`hdrLo`, `word`, `fldLo`, `dLat`, `w`) hold 0 (DESIGN CHOICE, unsafe, log 3). Nothing
is offered on a port. -/
def State.reset : State where
  cfg := 0
  oq := []
  phase := .idle
  idx := 0
  hdrLo := 0
  word := 0
  fldLo := 0
  dLat := 0
  w := 0
  acc := 0
  m := 0
  fIn := []
  cIn := []
  turns := []
  replies := []
  delivered := []
  freeIx := 0
  instanceNo := 0

end Sys2Proof.Machine
end

