-- ==== Sys2Proof/Machine/Flags.lean ====
section
/-! DEFINITION. The per-frame condition codes (spec/10_state.md R24): the descriptor's fields, how each outcome of a
decode sets them (spec/41_message_decode.md R100, R113), and the 64-bit packing (spec/30_encoding.md R66,
spec/43_output_and_config.md R152). -/

namespace Sys2Proof.Machine

/-- Descriptor `status` (R69). Code 3 is reserved and never produced, so it has no constructor. -/
inductive Status where
  | ok
  | short
  | badCode
  deriving DecidableEq, Repr

/-- Descriptor `x_status` (R70). Code 3 is reserved and never produced, so it has no constructor. -/
inductive XStatus where
  | none
  | ok
  | depthErr
  deriving DecidableEq, Repr

/-- R69: 0 OK, 1 SHORT, 2 BADCODE. -/
def Status.bits : Status → BitVec 2
  | .ok => 0
  | .short => 1
  | .badCode => 2

/-- R70: 0 NONE, 1 OK, 2 DEPTH_ERR. -/
def XStatus.bits : XStatus → BitVec 2
  | .none => 0
  | .ok => 1
  | .depthErr => 2

/-- The decode record `D` of R100: the descriptor's fields but for `x_status` and `w`, and the body. -/
structure DecodeRecord where
  status : Status
  hdrValid : Bool
  isData : Bool
  type : BitVec 3
  seqValid : Bool
  declLen : BitVec 13
  code : Half
  seq : Half
  body : List Byte
  deriving DecidableEq, Repr

/-- R113, n < 2: SHORT, and every other field 0. -/
def noHeaderRecord : DecodeRecord where
  status := .short
  hdrValid := false
  isData := false
  type := 0
  seqValid := false
  declLen := 0
  code := 0
  seq := 0
  body := []

/-- R91, R113, 2 ≤ n < 4: SHORT, with the header's fields reported. -/
def headerRecord (word : Half) : DecodeRecord :=
  { noHeaderRecord with
    hdrValid := true
    type := msgType word
    declLen := declaredLength word
    isData := isDataType (msgType word) }

/-- R100, control branch, n ≥ 4: the code check of R103. A known code gives OK with the body, an unknown one BADCODE with
the code as received and no body. -/
def controlRecord (P : Params) (word code : Half) (body : List Byte) : DecodeRecord :=
  if P.knows code then { headerRecord word with status := .ok, code := code, body := body }
  else { headerRecord word with status := .badCode, code := code }

/-- R100, data branch, n ≥ 4: OK, `CODE_NONE`, the sequence number and the body. -/
def dataRecord (P : Params) (word seq : Half) (body : List Byte) : DecodeRecord :=
  { headerRecord word with status := .ok, code := P.codeNone, seq := seq, seqValid := true, body := body }

/-- The fields of a descriptor (R66). -/
structure Desc where
  status : Status
  hdrValid : Bool
  isData : Bool
  type : BitVec 3
  seqValid : Bool
  declLen : BitVec 13
  xStatus : XStatus
  w : BitVec 3
  code : Half
  seq : Half
  deriving DecidableEq, Repr

/-- R152: a decode record with the outcome of extraction. -/
def DecodeRecord.desc (D : DecodeRecord) (x : XStatus) (w : BitVec 3) : Desc where
  status := D.status
  hdrValid := D.hdrValid
  isData := D.isData
  type := D.type
  seqValid := D.seqValid
  declLen := D.declLen
  xStatus := x
  w := w
  code := D.code
  seq := D.seq

/-- One bit, zero-extended. -/
def bit64 (b : Bool) : Dword := (BitVec.ofBool b).setWidth 64

/-- R152, `Pack`: the 64-bit descriptor. Bits 23 and 31:27 are reserved and 0. -/
def Desc.pack (d : Desc) : Dword :=
  d.status.bits.setWidth 64 |||
  (bit64 d.hdrValid <<< 2) |||
  (bit64 d.isData <<< 3) |||
  (d.type.setWidth 64 <<< 4) |||
  (bit64 d.seqValid <<< 7) |||
  (d.declLen.setWidth 64 <<< 8) |||
  (d.xStatus.bits.setWidth 64 <<< 21) |||
  (d.w.setWidth 64 <<< 24) |||
  (d.code.setWidth 64 <<< 32) |||
  (d.seq.setWidth 64 <<< 48)

/-- The status a 2-bit field stands for; the reserved code 3 stands for none (R71). -/
def Status.ofBits (b : BitVec 2) : Option Status :=
  match b.toNat with
  | 0 => some .ok
  | 1 => some .short
  | 2 => some .badCode
  | _ => none

/-- The extraction status a 2-bit field stands for; the reserved code 3 stands for none (R71). -/
def XStatus.ofBits (b : BitVec 2) : Option XStatus :=
  match b.toNat with
  | 0 => some .none
  | 1 => some .ok
  | 2 => some .depthErr
  | _ => Option.none

/-- A consumer's reading of a descriptor (R66). R71: a reader refuses a descriptor that carries a reserved encoding
(`status` 3, `x_status` 3, a reserved bit set). -/
def Desc.unpack (v : Dword) : Option Desc :=
  if v.getLsbD 23 || v.extractLsb' 27 5 != 0 then none
  else
    match Status.ofBits (v.extractLsb' 0 2), XStatus.ofBits (v.extractLsb' 21 2) with
    | some st, some x => some
      { status := st
        hdrValid := v.getLsbD 2
        isData := v.getLsbD 3
        type := v.extractLsb' 4 3
        seqValid := v.getLsbD 7
        declLen := v.extractLsb' 8 13
        xStatus := x
        w := v.extractLsb' 24 3
        code := v.extractLsb' 32 16
        seq := v.extractLsb' 48 16 }
    | _, _ => none

/-- A consumer's reading of the sequence number: none where `seq_valid` is 0 (spec/93_implementation_defined.md U6). -/
def Desc.sequence (d : Desc) : Option Half := if d.seqValid then some d.seq else none

/-- R68: the 2-bit code of a beat kind. -/
def BeatKind.bits : BeatKind → BitVec 2
  | .desc => 0
  | .body => 1
  | .sample => 2

/-- The beat kind a 2-bit code stands for; the reserved code 3 stands for none (R68, R71). -/
def BeatKind.ofBits (b : BitVec 2) : Option BeatKind :=
  match b.toNat with
  | 0 => some .desc
  | 1 => some .body
  | 2 => some .sample
  | _ => none

/-- A consumer's reading of the signals of port O (R67). R71: a reader refuses a beat that carries a reserved encoding,
`o_kind` 3 or a descriptor with one. -/
def Beat.ofSignals (kind : BitVec 2) (data : Dword) (nbytes : BitVec 3) (last : Bool) : Option Beat :=
  match BeatKind.ofBits kind with
  | none => none
  | some .desc => (Desc.unpack data).map fun _ => ⟨.desc, data, nbytes, last⟩
  | some .body => some ⟨.body, data, nbytes, last⟩
  | some .sample => some ⟨.sample, data, nbytes, last⟩

end Sys2Proof.Machine
end

