-- ==== Sys2Proof/Machine/Operands.lean ====
section
/-! DEFINITION. How an operation reads its operands: the bytes of a frame at fixed offsets (spec/00_scope.md R12,
spec/41_message_decode.md R100) and the body cut into samples (spec/42_sample_extract.md R130 to R135). -/

namespace Sys2Proof.Machine

/-- R134: the unsigned little-endian value of a chunk, the sum of `C[j] << (8·j)`. -/
def leValue : List Byte → Nat
  | [] => 0
  | b :: bs => b.toNat + 256 * leValue bs

/-- R12, `MemRead(i, k)`: the little-endian value of the `k` bytes at offsets `i..i+k-1`. -/
def memRead (F : List Byte) (i k : Nat) : Nat := leValue ((F.drop i).take k)

/-- R134: the 32-bit sample a chunk gives, zero-extended, or sign-extended from the chunk's own top bit. -/
def sampleValue (signed : Bool) (C : List Byte) : Word :=
  if signed then (BitVec.ofNat (8 * C.length) (leValue C)).signExtend 32
  else BitVec.ofNat 32 (leValue C)

/-- R130: a sample with the number of bytes that formed it. -/
def sampleOf (signed : Bool) (C : List Byte) : Word × BitVec 3 :=
  (sampleValue signed C, BitVec.ofNat 3 C.length)

/-- R133: `B` cut into consecutive chunks of `w` bytes, at most `fuel` of them; the last may be short (R135). -/
def chunksUpTo : Nat → Nat → List Byte → List (List Byte)
  | 0, _, _ => []
  | _ + 1, _, [] => []
  | fuel + 1, w, B => B.take w :: chunksUpTo fuel w (B.drop w)

/-- R133: `B` cut into consecutive chunks of `w` bytes. -/
def chunks (w : Nat) (B : List Byte) : List (List Byte) := chunksUpTo B.length w B

/-- R131: the depths extraction accepts. -/
def depthInRange (d : Word) : Bool := d.toNat != 0 && d.toNat ≤ 32

/-- R13, R132: `w = (d + 7) >> 3`, for a depth in 1..32. -/
def chunkWidth (d : Word) : BitVec 3 := BitVec.ofNat 3 ((d.toNat + 7) >>> 3)

/-- R130: the samples of a body under chunk width `w`. -/
def samplesOf (signed : Bool) (w : BitVec 3) (B : List Byte) : List (Word × BitVec 3) :=
  (chunks w.toNat B).map (sampleOf signed)

/-- R130, `Extract(d, B)`. -/
def extract (signed : Bool) (d : Word) (B : List Byte) : XStatus × BitVec 3 × List (Word × BitVec 3) :=
  if depthInRange d then (.ok, chunkWidth d, samplesOf signed (chunkWidth d) B)
  else (.depthErr, 0, [])

/-- R100, `Decode(F)`, on any list of bytes. -/
def decodeFrame (P : Params) : List Byte → DecodeRecord
  | [] => noHeaderRecord
  | [_] => noHeaderRecord
  | [b0, b1] => headerRecord (le16 b0 b1)
  | [b0, b1, _] => headerRecord (le16 b0 b1)
  | b0 :: b1 :: b2 :: b3 :: body =>
    let word := le16 b0 b1
    if isDataType (msgType word) then dataRecord P word (le16 b2 b3) body
    else controlRecord P word (le16 b2 b3) body

end Sys2Proof.Machine
end

