-- ==== Sys2Proof/Machine/Ops.lean ====
section
/-! DEFINITION. The named operations every meaning is written over: the configuration registers, output beats, error
entry, the downstream's take, room on port O, and reset. -/

namespace Sys2Proof.Machine

/-- R22, R23, R158: register offset 0 reads CFG.BIT_DEPTH, every other offset reads 0. -/
def readReg (off : BitVec 8) (s : State) : Word := if off = 0 then s.cfg else 0

/-- R22, R23, R157: a write to register offset 0 is stored as written, a write elsewhere changes no state. -/
def writeReg (off : BitVec 8) (v : Word) (s : State) : State := if off = 0 then { s with cfg := v } else s

/-- R68: a DESC beat. -/
def descBeat (d : Desc) (last : Bool) : Beat := ⟨.desc, d.pack, 0, last⟩

/-- R68, R153: a BODY beat, `o_data = zext_64(byte)`, one byte. -/
def bodyBeat (b : Byte) (last : Bool) : Beat := ⟨.body, b.setWidth 64, 1, last⟩

/-- R68, R154: a SAMPLE beat, `o_data = zext_64(v)`, `m` bytes. -/
def sampleBeat (v : Word × BitVec 3) (last : Bool) : Beat := ⟨.sample, v.1.setWidth 64, v.2, last⟩

/-- R156: `o_last` is 1 on the final beat of a frame and 0 on every other. -/
def markLast : List Beat → List Beat
  | [] => []
  | [b] => [{ b with last := true }]
  | b :: b' :: bs => { b with last := false } :: markLast (b' :: bs)

/-- R150, R156: the beats of a frame that has a payload to output: its descriptor, then the payload. -/
def frameBeatsOut (d : Desc) (payload : List Beat) : List Beat := markLast (descBeat d false :: payload)

/-- R25, R150: beats are appended to OQ in order. -/
def emit (bs : List Beat) (s : State) : State := { s with oq := s.oq ++ bs }

/-- ERROR ENTRY (R176, R155, R154): an error is reported in the frame's descriptor, which is the frame's only beat, and
the rest of the frame is discarded. Nothing is saved, and no register changes: the block goes to IDLE if the frame ends
here (`L`), else to DISCARD until it ends. There is no return from it (R177). -/
def errorEntry (d : Desc) (L : Bool) (s : State) : State × Option Beat :=
  ({ s with phase := if L then .idle else .discard }, some (descBeat d true))

/-- A step's register changes and its beat, if any, taken together. -/
def commit (r : State × Option Beat) : State := emit r.2.toList r.1

/-- A frame has ended: the next accepted byte is offset 0 of a new frame (R31, R151). -/
def endFrame (s : State) : State := { s with phase := .idle, idx := 0 }

/-- R162, R199: whether a beat can be placed on port O, with the state after the question. It can while O holds none; while
O holds one, that depends on the instance's own buffering, which is free (log 8). -/
def roomOnO (s : State) : Bool × State :=
  if s.oq.isEmpty then (true, s)
  else (Config.outputRoom s.instanceNo s.freeIx s.oq.length, { s with freeIx := s.freeIx + 1 })

/-- R163, `Take`: the head beat of OQ goes to the downstream. With OQ empty nothing is offered. -/
def takeBeat (s : State) : State :=
  match s.oq with
  | [] => s
  | b :: rest => { s with oq := rest, delivered := s.delivered ++ [b] }

/-- R190, R31: CFG, OQ, phase, acc, m and the byte index take their reset values; the registers R27 leaves unspecified
take free values (log 4). The ports' side is not the block's to change (R196, log 22). -/
def resetBlock (s : State) : State :=
  { s with
    cfg := 0
    oq := []
    phase := .idle
    idx := 0
    acc := 0
    m := 0
    hdrLo := Config.hdrLoAfterReset s.instanceNo s.freeIx
    word := Config.wordAfterReset s.instanceNo s.freeIx
    fldLo := Config.fldLoAfterReset s.instanceNo s.freeIx
    dLat := Config.dLatAfterReset s.instanceNo s.freeIx
    w := Config.wAfterReset s.instanceNo s.freeIx
    freeIx := s.freeIx + 1 }

end Sys2Proof.Machine
end

