-- ==== Sys2Proof/Machine/ConfigPort.lean ====
section
/-! DEFINITION. The operations of configuration port C (spec/43_output_and_config.md R157 to R159). They never wait for a
frame, whatever the phase or the output backpressure. -/

namespace Sys2Proof.Machine

/-- CFG_WR (R157). -/
def execCfgWr (off : BitVec 8) (v : Word) (s : State) : Host.Outcome State Fault Refusal :=
  .next (writeReg off v s)

/-- CFG_RD (R158): the value is returned on `c_rdata`; the block's state does not change. -/
def execCfgRd (off : BitVec 8) (s : State) : Host.Outcome State Fault Refusal :=
  .next { s with replies := s.replies ++ [readReg off s] }

end Sys2Proof.Machine
end

