-- ==== Sys2Proof/Machine/Serial.lean ====
section
/-! DEFINITION. The byte-serial reference machine of spec/43_output_and_config.md R160, over the in-flight registers of
spec/10_state.md R27. Each accepted byte emits at most one beat. -/

namespace Sys2Proof.Machine

/-- R160, phase IDLE: frame offset 0. The depth is latched here (R28). -/
def serialIdle (b : Byte) (L : Bool) (s : State) : State × Option Beat :=
  let s := { s with dLat := s.cfg, hdrLo := b }
  if L then errorEntry (noHeaderRecord.desc .none 0) true s
  else ({ s with phase := .hdr1 }, none)

/-- R160, phase HDR1: frame offset 1. -/
def serialHdr1 (b : Byte) (L : Bool) (s : State) : State × Option Beat :=
  let s := { s with word := le16 s.hdrLo b }
  if L then errorEntry ((headerRecord s.word).desc .none 0) true s
  else ({ s with phase := .fld0 }, none)

/-- R160, phase FLD0: frame offset 2. -/
def serialFld0 (b : Byte) (L : Bool) (s : State) : State × Option Beat :=
  let s := { s with fldLo := b }
  if L then errorEntry ((headerRecord s.word).desc .none 0) true s
  else ({ s with phase := .fld1 }, none)

/-- R160, phase FLD1, control types: the code check, then BODY or DISCARD. -/
def serialControl (P : Params) (code : Half) (L : Bool) (s : State) : State × Option Beat :=
  let D := controlRecord P s.word code []
  if P.knows code then
    ({ s with phase := if L then .idle else .body }, some (descBeat (D.desc .none 0) L))
  else errorEntry (D.desc .none 0) L s

/-- R160, phase FLD1, data types: the depth check, then SAMPLES or DISCARD. -/
def serialData (P : Params) (seq : Half) (L : Bool) (s : State) : State × Option Beat :=
  let D := dataRecord P s.word seq []
  if depthInRange s.dLat then
    ({ s with w := chunkWidth s.dLat, acc := 0, m := 0, phase := if L then .idle else .samples },
      some (descBeat (D.desc .ok (chunkWidth s.dLat)) L))
  else errorEntry (D.desc .depthErr 0) L s

/-- R160, phase FLD1: frame offset 3, dispatching on `word[15]` (R115). -/
def serialFld1 (P : Params) (b : Byte) (L : Bool) (s : State) : State × Option Beat :=
  let fld := le16 s.fldLo b
  if isDataType (msgType s.word) then serialData P fld L s else serialControl P fld L s

/-- R160, phase BODY: offsets 4 and on of a control frame. -/
def serialBody (b : Byte) (L : Bool) (s : State) : State × Option Beat :=
  ({ s with phase := if L then .idle else .body }, some (bodyBeat b L))

/-- R160: the sample `acc` holds after `m` bytes, extended as R134 says. -/
def accSample (signed : Bool) (acc : Word) (m : BitVec 3) : Word :=
  if signed then (acc.setWidth (8 * m.toNat)).signExtend 32 else acc

/-- R160, phase SAMPLES: offsets 4 and on of a data frame. -/
def serialSamples (signed : Bool) (b : Byte) (L : Bool) (s : State) : State × Option Beat :=
  let acc := s.acc ||| (b.setWidth 32 <<< (8 * s.m.toNat))
  let m := s.m + 1
  let s := { s with phase := if L then .idle else .samples }
  if m = s.w ∨ L = true then
    ({ s with acc := 0, m := 0 }, some (sampleBeat (accSample signed acc m, m) L))
  else ({ s with acc := acc, m := m }, none)

/-- R160, phase DISCARD: no output. -/
def serialDiscard (L : Bool) (s : State) : State × Option Beat :=
  ({ s with phase := if L then .idle else .discard }, none)

/-- R160: what one accepted byte does to the registers, and the beat it emits, if any. -/
def serialNext (P : Params) (b : Byte) (L : Bool) (s : State) : State × Option Beat :=
  match s.phase with
  | .idle => serialIdle b L s
  | .hdr1 => serialHdr1 b L s
  | .fld0 => serialFld0 b L s
  | .fld1 => serialFld1 P b L s
  | .body => serialBody b L s
  | .samples => serialSamples P.sampleSigned b L s
  | .discard => serialDiscard L s

/-- R21: the byte index after one more accepted byte; the end of a frame starts the count again. -/
def countByte (L : Bool) (s : State) : State := { s with idx := if L then 0 else s.idx + 1 }

/-- R160, `on accept(b, L)`. -/
def accept (P : Params) (b : Byte) (L : Bool) (s : State) : State := commit (serialNext P b L (countByte L s))

/-- The beats of port F accepted one after the other. -/
def acceptBeats (P : Params) : List FBeat → State → State
  | [], s => s
  | f :: fs, s => acceptBeats P fs (accept P f.data f.last s)

/-- R72, R83: the beats of a frame; `f_last` is 1 on the last byte alone. -/
def frameBeats : List Byte → List FBeat
  | [] => []
  | [b] => [⟨b, true⟩]
  | b :: b' :: bs => ⟨b, false⟩ :: frameBeats (b' :: bs)

/-- R83: bytes that do not end a frame. -/
def openBeats (bs : List Byte) : List FBeat := bs.map fun b => ⟨b, false⟩

/-- The beats of port F that a transfer consists of; other transfers use no beat of port F. -/
def transferBeats : Transfer → List FBeat
  | .frame bytes => frameBeats bytes
  | .config _ _ _ => []
  | .extract _ _ _ _ => []
  | .rst => []

end Sys2Proof.Machine
end

