-- ==== Sys2Proof/Machine/FrameStep.lean ====
section
/-! DEFINITION. The transaction level: `Out(F, d)` of spec/43_output_and_config.md R150 on the bytes of a frame, and the
frame step as the operations DEC_* and EXT_* share it. -/

namespace Sys2Proof.Machine

/-- R150, `Out(F, d)`, transcribed: the beats of one frame under depth `d`. -/
def frameOut (P : Params) (d : Word) (F : List Byte) : List Beat :=
  let D := decodeFrame P F
  match D.status, D.isData with
  | .ok, false => markLast (descBeat (D.desc .none 0) false :: D.body.map (bodyBeat · false))
  | .ok, true =>
    let (x, w, S) := extract P.sampleSigned d D.body
    markLast (descBeat (D.desc x w) false :: S.map (sampleBeat · false))
  | _, _ => markLast [descBeat (D.desc .none 0) false]

/-- The in-flight registers once a whole frame has been accepted from IDLE (R27, R28, R160; log 23): the depth latched at
its first byte, its header, and its third byte where it has one. The block is back in IDLE. -/
def latchFrame (word : Half) (tail : Tail) (s : State) : State :=
  endFrame { s with
    dLat := s.cfg
    hdrLo := loByte word
    word := word
    fldLo := match tail with
      | .empty => s.fldLo
      | .part b => b
      | .fields f _ => loByte f }

/-- The short-frame outcome of a DEC_* operation (R101, R171): error entry with the header reported. -/
def shortFrame (word : Half) (s : State) : State :=
  commit (errorEntry ((headerRecord word).desc .none 0) true s)

/-- R100 to R104, R153, R155: a whole control frame with its code and body. -/
def controlItem (P : Params) (word code : Half) (body : List Byte) (s : State) : State :=
  let D := controlRecord P word code body
  if P.knows code then emit (frameBeatsOut (D.desc .none 0) (D.body.map (bodyBeat · false))) s
  else commit (errorEntry (D.desc .none 0) true s)

/-- The descriptor of an OK data frame under an extraction outcome (R109, R152). -/
def itemDesc (P : Params) (item : DataItem) (x : XStatus) (w : BitVec 3) : Desc :=
  (dataRecord P (headerWord (dataType item.sub) item.declLen) item.seq item.body).desc x w

/-- R130 with chunk width `w`, R154: an OK data frame goes out as its descriptor and its samples. The frame ends with
nothing left in the sample register (R160). -/
def sampleItem (P : Params) (w : BitVec 3) (item : DataItem) (s : State) : State :=
  emit (frameBeatsOut (itemDesc P item .ok w)
      ((samplesOf P.sampleSigned w item.body).map (sampleBeat · false)))
    (endFrame { s with w := w, acc := 0, m := 0 })

/-- R131, R140, R173: an OK data frame under an out-of-range depth. Error entry; the body is ignored. -/
def depthErrorItem (P : Params) (item : DataItem) (s : State) : State :=
  commit (errorEntry (itemDesc P item .depthErr 0) true (endFrame s))

/-- R130, R154: extraction of an OK data frame under the latched depth `d`. -/
def extractItem (P : Params) (d : Word) (item : DataItem) (s : State) : State :=
  if depthInRange d then sampleItem P (chunkWidth d) item s else depthErrorItem P item s

/-- A control-type frame is accepted on port F (R105 to R108, R150). At a frame boundary it is a frame of its own; inside a
frame its bytes belong to the frame in flight (R151, log 10). -/
def controlFrame (P : Params) (t : BitVec 3) (len : BitVec 13) (tail : Tail) (s : State) : State :=
  if s.phase = .idle then
    let word := headerWord t len
    match tail with
    | .fields code body => controlItem P word code body (latchFrame word tail s)
    | .empty => shortFrame word (latchFrame word tail s)
    | .part _ => shortFrame word (latchFrame word tail s)
  else acceptBeats P (frameBeats (frameBytes t len tail)) s

/-- A data-type frame is accepted on port F (R109 to R112, R150). At a frame boundary it is a frame of its own, cut with
the depth CFG holds at its first byte (R28); inside a frame its bytes belong to the frame in flight (R151, log 10). -/
def dataFrame (P : Params) (sub : BitVec 2) (len : BitVec 13) (tail : Tail) (s : State) : State :=
  if s.phase = .idle then
    let word := headerWord (dataType sub) len
    match tail with
    | .fields seq body => extractItem P s.cfg ⟨sub, len, seq, body⟩ (latchFrame word tail s)
    | .empty => shortFrame word (latchFrame word tail s)
    | .part _ => shortFrame word (latchFrame word tail s)
  else acceptBeats P (frameBeats (frameBytes (dataType sub) len tail)) s

end Sys2Proof.Machine
end

