-- ==== Sys2Proof/Machine/Control.lean ====
section
/-! DEFINITION. The control-item decodes (spec/41_message_decode.md R105 to R108). -/

namespace Sys2Proof.Machine

/-- DEC_SET_CI, type 0 (R105). -/
def execDecSetCi (len : BitVec 13) (tail : Tail) (s : State) : Host.Outcome State Fault Refusal :=
  .next (controlFrame Config.params 0 len tail s)

/-- DEC_GET_CI, type 1 (R106). -/
def execDecGetCi (len : BitVec 13) (tail : Tail) (s : State) : Host.Outcome State Fault Refusal :=
  .next (controlFrame Config.params 1 len tail s)

/-- DEC_CI_RANGE, type 2 (R107). -/
def execDecCiRange (len : BitVec 13) (tail : Tail) (s : State) : Host.Outcome State Fault Refusal :=
  .next (controlFrame Config.params 2 len tail s)

/-- DEC_ACK, type 3 (R108). -/
def execDecAck (len : BitVec 13) (tail : Tail) (s : State) : Host.Outcome State Fault Refusal :=
  .next (controlFrame Config.params 3 len tail s)

end Sys2Proof.Machine
end

