-- ==== Sys2Proof/Machine/Data.lean ====
section
/-! DEFINITION. The data-item decodes (spec/41_message_decode.md R109 to R112). All four decode the same way but for the
type reported (spec/92_eei_decisions.md D22). -/

namespace Sys2Proof.Machine

/-- DEC_DATA0, type 4 (R109). -/
def execDecData0 (len : BitVec 13) (tail : Tail) (s : State) : Host.Outcome State Fault Refusal :=
  .next (dataFrame Config.params 0 len tail s)

/-- DEC_DATA1, type 5 (R110). -/
def execDecData1 (len : BitVec 13) (tail : Tail) (s : State) : Host.Outcome State Fault Refusal :=
  .next (dataFrame Config.params 1 len tail s)

/-- DEC_DATA2, type 6 (R111). -/
def execDecData2 (len : BitVec 13) (tail : Tail) (s : State) : Host.Outcome State Fault Refusal :=
  .next (dataFrame Config.params 2 len tail s)

/-- DEC_DATA3, type 7 (R112). -/
def execDecData3 (len : BitVec 13) (tail : Tail) (s : State) : Host.Outcome State Fault Refusal :=
  .next (dataFrame Config.params 3 len tail s)

end Sys2Proof.Machine
end

