-- ==== Sys2Proof/Machine/Extract.lean ====
section
/-! DEFINITION. The sample-extraction classes (spec/42_sample_extract.md R136 to R140), each on an OK data frame whose
latched depth selected it (log 11). Within a class the depth makes no further difference: nothing is masked (R134). -/

namespace Sys2Proof.Machine

/-- EXT_W1 (R136): each body byte is one sample. -/
def execExtW1 (item : DataItem) (s : State) : Host.Outcome State Fault Refusal :=
  .next (sampleItem Config.params 1 item s)

/-- EXT_W2 (R137): each 2 body bytes form one sample. -/
def execExtW2 (item : DataItem) (s : State) : Host.Outcome State Fault Refusal :=
  .next (sampleItem Config.params 2 item s)

/-- EXT_W3 (R138): each 3 body bytes form one sample. -/
def execExtW3 (item : DataItem) (s : State) : Host.Outcome State Fault Refusal :=
  .next (sampleItem Config.params 3 item s)

/-- EXT_W4 (R139): each 4 body bytes form one sample. -/
def execExtW4 (item : DataItem) (s : State) : Host.Outcome State Fault Refusal :=
  .next (sampleItem Config.params 4 item s)

/-- EXT_DEPTH_ERR (R140): DEPTH_ERR and no samples. -/
def execExtDepthErr (item : DataItem) (s : State) : Host.Outcome State Fault Refusal :=
  .next (depthErrorItem Config.params item s)

end Sys2Proof.Machine
end

