-- ==== Sys2Proof/Machine/System.lean ====
section
/-! DEFINITION. Reset as an operation (spec/70_reset_and_hazards.md R190). -/

namespace Sys2Proof.Machine

/-- RESET (R190): it does not depend on what the ports are doing and cannot fail. -/
def execReset (s : State) : Host.Outcome State Fault Refusal :=
  .next (resetBlock s)

end Sys2Proof.Machine
end

