-- ==== Sys2Proof/Machine/Dispatch.lean ====
section
/-! DEFINITION. One arm per operation of the block. -/

namespace Sys2Proof.Machine

/-- The meaning of each operation. -/
def exec (i : Instr) (s : State) : Host.Outcome State Fault Refusal :=
  match i with
  | .decSetCi len tail => Sys2Proof.Machine.execDecSetCi len tail s
  | .decGetCi len tail => Sys2Proof.Machine.execDecGetCi len tail s
  | .decCiRange len tail => Sys2Proof.Machine.execDecCiRange len tail s
  | .decAck len tail => Sys2Proof.Machine.execDecAck len tail s
  | .decData0 len tail => Sys2Proof.Machine.execDecData0 len tail s
  | .decData1 len tail => Sys2Proof.Machine.execDecData1 len tail s
  | .decData2 len tail => Sys2Proof.Machine.execDecData2 len tail s
  | .decData3 len tail => Sys2Proof.Machine.execDecData3 len tail s
  -- the depth has selected the class; the class's meaning reads the data item alone (R132, R134)
  | .extW1 _ item => Sys2Proof.Machine.execExtW1 item s
  | .extW2 _ item => Sys2Proof.Machine.execExtW2 item s
  | .extW3 _ item => Sys2Proof.Machine.execExtW3 item s
  | .extW4 _ item => Sys2Proof.Machine.execExtW4 item s
  | .extDepthErr _ item => Sys2Proof.Machine.execExtDepthErr item s
  | .cfgWr off v => Sys2Proof.Machine.execCfgWr off v s
  | .cfgRd off => Sys2Proof.Machine.execCfgRd off s
  | .reset => Sys2Proof.Machine.execReset s

end Sys2Proof.Machine
end

