-- ==== Sys2Proof/Machine/Fetch.lean ====
section
/-! DEFINITION. What one turn brings to the block: an operation to decode and run, or a port event that is settled here
(spec/43_output_and_config.md R151, R159, R162, R163). -/

namespace Sys2Proof.Machine

/-- What a turn comes to. -/
inductive Fetched where
  /-- A whole operation arrived; `s` is the state with its transfer taken from the port. -/
  | op (x : Transfer) (s : State)
  /-- The turn is over, in state `s`, with no operation to run. -/
  | done (s : State)
  deriving DecidableEq, Repr

/-- R151: the bytes up to and including the next beat with `f_last`, and the beats after it; none while no beat offered has
`f_last` (R198). -/
def splitFrame : List FBeat → Option (List Byte × List FBeat)
  | [] => none
  | f :: fs =>
    if f.last then some ([f.data], fs)
    else
      match splitFrame fs with
      | some (F, rest) => some (f.data :: F, rest)
      | none => none

/-- The bytes up to `f_last` are accepted. At a frame boundary they are a frame (R150). Where a data frame has all but the
last of its fixed bytes in, its rest goes to the extraction class the latched depth selects (R136 to R140, log 11).
Elsewhere they end the frame in flight (R160). -/
def fetchBytes (F : List Byte) (s : State) : Fetched :=
  match s.phase, isDataType (msgType s.word), F with
  | .idle, _, F => .op (.frame F) s
  | .fld1, true, hi :: body => .op (.extract s.dLat s.word (le16 s.fldLo hi) body) s
  | _, _, F => .done (acceptBeats Config.params (frameBeats F) s)

/-- R163 `Frame`, a frame turn. It waits while the upstream has not offered the frame's end (log 16), and it may wait while
port O holds a beat (R162, R199, log 8). -/
def fetchFrame (s : State) : Fetched :=
  match splitFrame s.fIn with
  | none => .done s
  | some (F, rest) =>
    match roomOnO s with
    | (false, s') => .done s'
    | (true, s') => fetchBytes F { s' with fIn := rest }

/-- R160, R162, a byte turn: the head beat of port F is accepted if the beat it emits, if any, can be offered on port O.
Else it stays on the port. -/
def acceptByte (s : State) : State :=
  match s.fIn with
  | [] => s
  | f :: rest =>
    let accepted := accept Config.params f.data f.last
    match (serialNext Config.params f.data f.last s).2 with
    | none => accepted { s with fIn := rest }
    | some _ =>
      match roomOnO s with
      | (false, s') => s'
      | (true, s') => accepted { s' with fIn := rest }

/-- R159, a config turn: the next access on port C is accepted, whatever the phase or the output. -/
def fetchConfig (s : State) : Fetched :=
  match s.cIn with
  | [] => .done s
  | a :: rest => .op (.config a.write a.addr a.wdata) { s with cIn := rest }

/-- What turn `t` comes to, the turn itself already taken from the list. -/
def fetchTurn (t : Turn) (s : State) : Fetched :=
  match t with
  | .rst => .op .rst s
  | .config => fetchConfig s
  | .frame => fetchFrame s
  | .byte => .done (acceptByte s)
  | .byteWithConfig => fetchConfig (acceptByte s)
  | .take => .done (takeBeat s)

/-- What the next step comes to. With no turn left nothing happens (R184). -/
def fetch (s : State) : Fetched :=
  match s.turns with
  | [] => .done s
  | t :: ts => fetchTurn t { s with turns := ts }

end Sys2Proof.Machine
end

