-- ==== Sys2Proof/Machine/Turns.lean ====
section
/-! DEFINITION. One step of the block: fetch a turn, decode what it brings, run it. -/

namespace Sys2Proof.Machine

/-- A transfer is decoded and run. One that is no operation of the table, a frame of one byte, goes to the byte-serial
machine, which reports it SHORT (R101, R160; log 9). -/
def runTransfer (x : Transfer) (s : State) : Host.Outcome State Fault Refusal :=
  match decode x with
  | .ok i => exec i s
  | .error _ => .next (acceptBeats Config.params (transferBeats x) s)

/-- One turn. -/
def stepTurn (s : State) : Host.Outcome State Fault Refusal :=
  match fetch s with
  | .op x s' => runTransfer x s'
  | .done s' => .next s'

end Sys2Proof.Machine
end

