-- ==== Sys2Proof/Machine/Step.lean ====
section
/-! DEFINITION. The step of the block, and a state whose next step runs a given word of the opcode table. -/

namespace Sys2Proof.Machine

/-- One step: the next turn of the environment. -/
def step (s : State) : Host.Outcome State Fault Refusal := stepTurn s

/-- The frame that the table's bits `w` stand for is placed where the next step fetches it: at the head of port F, with a
frame turn next, the block at a frame boundary and port O free (log 12). -/
def State.withFetchWord (s : State) (nbits w : Nat) : State :=
  { s with
    turns := .frame :: s.turns
    fIn := frameBeats (tableFrame nbits w) ++ s.fIn
    phase := .idle
    idx := 0
    oq := [] }

end Sys2Proof.Machine
end

