-- ==== Sys2Proof/Machine/Instances.lean ====
section
/-! DEFINITION. Several instances (spec/60_exceptions.md R182, spec/20_memory.md R50): each is a block of its own, they
share no state, and nothing orders them (log 20). -/

namespace Sys2Proof.Machine

/-- Instance number `k` right after reset (R31). The number gives it free values of its own (logs 8 and 20). -/
def State.resetAs (k : Nat) : State := { State.reset with instanceNo := k }

/-- A system of `n` instances right after reset, numbered from 0. -/
def resetSystem (n : Nat) : List State := (List.range n).map State.resetAs

/-- Instance `k` of a system takes one step; the others are as they were. A number that no instance has changes nothing. -/
def stepInstance (k : Nat) (sys : List State) : Host.Outcome (List State) Fault Refusal :=
  match sys[k]? with
  | none => .next sys
  | some s =>
    match step s with
    | .next s' => .next (sys.set k s')
    | .fault r => .fault r
    | .refused r => .refused r

end Sys2Proof.Machine
end

