-- ==== Sys2Proof/Machine/RefEncoder.lean ====
section
/-! DEFINITION. The reference encoder of spec/30_encoding.md R75 to R79: the sender's side, not part of the block
(spec/00_scope.md R5). -/

namespace Sys2Proof.Machine

/-- E_LENGTH (R78, R174): the encoder's one error. The block never raises it. -/
inductive LengthError where
  | lengthExceeded
  deriving DecidableEq, Repr

/-- R75, `EncodeHeader(t, total)`, for `total` up to 8191. -/
def encodeHeader (t : BitVec 3) (total : Nat) : List Byte :=
  let word : Half := (t.setWidth 16 <<< 13) ||| BitVec.ofNat 16 total
  [loByte word, hiByte word]

/-- R76, R77: header, 16-bit field, payload; E_LENGTH where the total is above 8191. -/
def encodeItem (t : BitVec 3) (field : Half) (payload : List Byte) : Except LengthError (List Byte) :=
  let total := 4 + payload.length
  if total > 8191 then .error .lengthExceeded
  else .ok (encodeHeader t total ++ [loByte field, hiByte field] ++ payload)

/-- R76, `EncodeControl(t, code, P)`; any 3-bit type is allowed (92_eei_decisions.md D26). -/
def encodeControl (t : BitVec 3) (code : Half) (params : List Byte) : Except LengthError (List Byte) :=
  encodeItem t code params

/-- R77, `EncodeData(t, seq, B)`; any 3-bit type is allowed (92_eei_decisions.md D26). -/
def encodeData (t : BitVec 3) (seq : Half) (body : List Byte) : Except LengthError (List Byte) :=
  encodeItem t seq body

end Sys2Proof.Machine
end

