-- ==== Sys2Proof/Machine/Stimulus.lean ====
section
/-! DEFINITION. The stimulus notation of spec/30_encoding.md R83 and the pseudo-instructions of R84, as what they put on
the ports. -/

namespace Sys2Proof.Machine

/-- One line of a stimulus (R83), with the downstream's `Take` event of R163. -/
inductive Stimulus where
  | reset
  | cfgw (off : BitVec 8) (value : Word)
  | cfgr (off : BitVec 8)
  | frame (bytes : List Byte)
  | bytes (bs : List Byte)
  | take
  deriving DecidableEq, Repr

/-- R84: `CTRL t, code, [P]`; no expansion where the encoder raises E_LENGTH. -/
def Stimulus.ctrl (t : BitVec 3) (code : Half) (params : List Byte) : Option Stimulus :=
  match encodeControl t code params with
  | .ok F => some (.frame F)
  | .error _ => none

/-- R84: `DATA t, seq, [B]`; no expansion where the encoder raises E_LENGTH. -/
def Stimulus.data (t : BitVec 3) (seq : Half) (body : List Byte) : Option Stimulus :=
  match encodeData t seq body with
  | .ok F => some (.frame F)
  | .error _ => none

/-- The register offset at which a system address reaches the configuration port of instance `k`: the port's 256 offsets
stand at the platform parameter `CFG_BASE` (spec/20_memory.md R48), which is each instance's own (DESIGN CHOICE, log 24). An
address outside reaches no register of the instance. -/
def portOffset (k addr : Nat) : Option (BitVec 8) :=
  if Config.cfgBase k ≤ addr ∧ addr < Config.cfgBase k + 256 then some (BitVec.ofNat 8 (addr - Config.cfgBase k))
  else none

/-- A write to a system address, as the configuration access it reaches instance `k` as (R48). -/
def Stimulus.busWrite (k addr : Nat) (value : Word) : Option Stimulus := (portOffset k addr).map (.cfgw · value)

/-- A read of a system address, as the configuration access it reaches instance `k` as (R48). -/
def Stimulus.busRead (k addr : Nat) : Option Stimulus := (portOffset k addr).map .cfgr

/-- A stimulus line joins what the ports are offered, after all that is offered already. -/
def Stimulus.offer (x : Stimulus) (s : State) : State :=
  match x with
  | .reset => { s with turns := s.turns ++ [.rst] }
  | .cfgw off v => { s with turns := s.turns ++ [.config], cIn := s.cIn ++ [⟨true, off, v⟩] }
  | .cfgr off => { s with turns := s.turns ++ [.config], cIn := s.cIn ++ [⟨false, off, 0⟩] }
  | .frame F => { s with turns := s.turns ++ [.frame], fIn := s.fIn ++ frameBeats F }
  | .bytes bs => { s with turns := s.turns ++ List.replicate bs.length .byte, fIn := s.fIn ++ openBeats bs }
  | .take => { s with turns := s.turns ++ [.take] }

/-- A stimulus program, line by line. -/
def offerAll (xs : List Stimulus) (s : State) : State := xs.foldl (fun s x => x.offer s) s

end Sys2Proof.Machine
end

