-- ==== Sys2Proof/Safety.lean ====
section
/-! DEFINITION. What a sound state of the block is: the invariant every step keeps. The block never stops, so safety is
about what it outputs and what its in-flight registers hold. -/

namespace Sys2Proof.Machine

/-- The relations spec/30_encoding.md R66 and spec/41_message_decode.md R113 put between a descriptor's fields. -/
def Desc.coherent (d : Desc) : Bool :=
  (d.isData == (d.hdrValid && isDataType d.type)) &&
  (d.hdrValid || (d.type == 0 && d.declLen == 0)) &&
  (d.status == .short || d.hdrValid) &&
  (d.status != .badCode || !d.isData) &&
  (d.seqValid == (d.status == .ok && d.isData)) &&
  (d.seqValid || d.seq == 0) &&
  (d.status != .short || d.code == 0) &&
  ((d.xStatus != .none) == (d.status == .ok && d.isData)) &&
  (if d.xStatus == .ok then 1 ≤ d.w.toNat && d.w.toNat ≤ 4 else d.w == 0)

/-- R68, R71: what a beat of each kind may carry. A DESC beat's payload reads as a coherent descriptor with no reserved
encoding; a BODY beat carries one byte; a SAMPLE beat carries the value of 1 to 4 bytes (zero-extended: this hardware has
`SAMPLE_SIGNED` false, R9). -/
def Beat.legal (b : Beat) : Bool :=
  match b.kind with
  | .desc => b.nbytes == 0 && (match Desc.unpack b.data with | some d => d.coherent | none => false)
  | .body => b.nbytes == 1 && b.data.toNat < 256
  | .sample => 1 ≤ b.nbytes.toNat && b.nbytes.toNat ≤ 4 && b.data.toNat < 256 ^ b.nbytes.toNat

/-- R156, R49: in a run of output beats, a frame's final beat is followed by a descriptor and by nothing else. -/
def framed : List Beat → Bool
  | [] => true
  | [_] => true
  | b :: b' :: bs => (b.last == (b'.kind == .desc)) && framed (b' :: bs)

/-- The phases in which the frame in flight still owes its final beat (R160). -/
def Phase.owesLast : Phase → Bool
  | .body | .samples => true
  | .idle | .hdr1 | .fld0 | .fld1 | .discard => false

/-- R156, R160: the newest beat in OQ is a frame's final beat, unless the frame in flight still owes payload. -/
def lastMatchesPhase (s : State) : Bool :=
  match s.oq.getLast? with
  | none => true
  | some b => b.last == !s.phase.owesLast

/-- R21, R27, R160: what the in-flight registers hold in each phase. (The byte index 0 in IDLE is log 5's inference.) -/
def inFlightOk (s : State) : Bool :=
  (s.phase == .samples || (s.acc == 0 && s.m == 0)) &&
  match s.phase with
  | .idle => s.idx == 0
  | .hdr1 => s.idx == 1
  | .fld0 => s.idx == 2 && s.hdrLo == loByte s.word
  | .fld1 => s.idx == 3 && s.hdrLo == loByte s.word
  | .body => 4 ≤ s.idx && s.hdrLo == loByte s.word && !isDataType (msgType s.word)
  | .discard => 4 ≤ s.idx && s.hdrLo == loByte s.word &&
      (!isDataType (msgType s.word) || !depthInRange s.dLat)
  | .samples => 4 ≤ s.idx && s.hdrLo == loByte s.word && isDataType (msgType s.word) &&
      depthInRange s.dLat && s.w == chunkWidth s.dLat && s.m.toNat < s.w.toNat &&
      s.m.toNat == (s.idx - 4) % s.w.toNat && s.acc.toNat < 256 ^ s.m.toNat

/-- The invariant of the block: legal beats, framed output, and in-flight registers that fit the phase. -/
abbrev State.Inv (s : State) : Prop :=
  (s.oq.all Beat.legal = true ∧ s.delivered.all Beat.legal = true) ∧
  (framed s.oq = true ∧ lastMatchesPhase s = true) ∧
  inFlightOk s = true

end Sys2Proof.Machine
end

