-- ==== Sys2Proof/Certificates/Slice0/Obligations.lean ====
section
/-! DEFINITION. The statements put to the provers. Each docstring names the rule of spec/ it formalises; a clause that rests
on a choice of the model names its log entry. -/

open Sys2Proof Sys2Proof.Machine

/-! ## Configuration and reset -/

/-- R157, CFG_WR, with its whole effect: offset 0 stores the value, any other offset has no effect. -/
def Obligations.CfgWriteStoresOrIgnores : Prop :=
  ∀ (off : BitVec 8) (v : Word) (s : State),
    exec (.cfgWr off v) s = .next (if off = 0 then { s with cfg := v } else s)

/-- R158, CFG_RD: it returns BIT_DEPTH at offset 0 and 0 elsewhere, and changes no state of the block. That the value
returned is appended to `replies` is the model's form of `c_rdata` (log 13). -/
def Obligations.CfgReadReturnsRegister : Prop :=
  ∀ (off : BitVec 8) (s : State),
    exec (.cfgRd off) s = .next { s with replies := s.replies ++ [if off = 0 then s.cfg else 0] }

/-- R23: the reserved offsets read 0 and ignore writes. -/
def Obligations.ReservedOffsetsReadZeroIgnoreWrites : Prop :=
  ∀ (off : BitVec 8) (v : Word) (s : State), off ≠ 0 →
    exec (.cfgWr off v) s = .next s ∧
    exec (.cfgRd off) s = .next { s with replies := s.replies ++ [0] }

/-- R190: reset clears CFG and OQ, puts the phase to IDLE, and empties the sample register, in every state. -/
def Obligations.ResetClearsBlock : Prop :=
  ∀ s : State, ∃ t : State, exec .reset s = .next t ∧
    t.cfg = 0 ∧ t.oq = [] ∧ t.phase = .idle ∧ t.acc = 0 ∧ t.m = 0

/-- What reset leaves on the ports' side: nothing offered is lost, nothing returned or delivered is taken back, and the byte
index starts again. The model's choice (logs 5 and 22). -/
def Obligations.ResetKeepsPortsSide : Prop :=
  ∀ s : State, ∃ t : State, exec .reset s = .next t ∧
    t.idx = 0 ∧ t.fIn = s.fIn ∧ t.cIn = s.cIn ∧ t.turns = s.turns ∧ t.replies = s.replies ∧ t.delivered = s.delivered

/-- R31: the reset values the spec gives, and the reserved offsets after reset. (The byte index is log 5's; that a read
appends its value to `replies` is the model's form of `c_rdata`, log 13, as in R158.) -/
def Obligations.ResetStateHoldsSpecValues : Prop :=
  State.reset.cfg = 0 ∧ State.reset.oq = [] ∧ State.reset.phase = .idle ∧ State.reset.acc = 0 ∧ State.reset.m = 0 ∧
  State.reset.idx = 0 ∧
  ∀ off : BitVec 8, exec (.cfgRd off) State.reset = .next { State.reset with replies := [0] }

/-- R193, R196: after reset the next byte is offset 0 of a new frame, and a frame is cut under depth 0 until CFG is
written. -/
def Obligations.FrameAfterResetIsNewAtDepthZero : Prop :=
  ∀ (s t : State) (P : Params) (F : List Byte), F ≠ [] → exec .reset s = .next t →
    (acceptBeats P (frameBeats F) t).oq = frameOut P 0 F

/-- R159, with R157 and R158: port C is served whatever the phase and whatever port O holds, at once and whole. That the
event is a turn taken from `turns` is the model's form of the environment's order (log 6), and that a read appends its
value to `replies` is its form of `c_rdata` (log 13). -/
def Obligations.ConfigTurnNeverWaits : Prop :=
  ∀ (s : State) (ts : List Turn) (a : CAccess) (as : List CAccess),
    s.turns = .config :: ts → s.cIn = a :: as →
    step s = .next (if a.write then
        (if a.addr = 0 then { s with turns := ts, cIn := as, cfg := a.wdata } else { s with turns := ts, cIn := as })
      else { s with turns := ts, cIn := as, replies := s.replies ++ [if a.addr = 0 then s.cfg else 0] })

/-- R53: CFG changes only when reset is asserted or a write to offset 0 is accepted; no frame changes it. (That the events
are turns taken from `turns` is log 6's form.) -/
def Obligations.CfgChangesOnlyByWriteOrReset : Prop :=
  ∀ s t : State, step s = .next t → t.cfg ≠ s.cfg →
    (∃ ts, s.turns = .rst :: ts ∧ t.cfg = 0) ∨
    (∃ ts a as, (s.turns = .config :: ts ∨ s.turns = .byteWithConfig :: ts) ∧ s.cIn = a :: as ∧
      a.write = true ∧ a.addr = 0 ∧ t.cfg = a.wdata)

/-! ## Encodings -/

/-- R41: the header's fields in its two bytes. -/
def Obligations.HeaderFieldsInBytes : Prop :=
  ∀ b0 b1 : Byte,
    (le16 b0 b1).toNat = b0.toNat + 256 * b1.toNat ∧
    (msgType (le16 b0 b1)).toNat = b1.toNat / 32 ∧
    (declaredLength (le16 b0 b1)).toNat = b0.toNat + 256 * (b1.toNat % 32)

/-- R152: where `Pack` puts each field, with the codes of `status` and `x_status`, and that the reserved bits are 0. -/
def Obligations.DescriptorPacksFieldsAtTheirBits : Prop :=
  (Status.ok.bits = 0 ∧ Status.short.bits = 1 ∧ Status.badCode.bits = 2) ∧
  (XStatus.none.bits = 0 ∧ XStatus.ok.bits = 1 ∧ XStatus.depthErr.bits = 2) ∧
  ∀ d : Desc,
    d.pack.extractLsb' 0 2 = d.status.bits ∧
    d.pack.getLsbD 2 = d.hdrValid ∧
    d.pack.getLsbD 3 = d.isData ∧
    d.pack.extractLsb' 4 3 = d.type ∧
    d.pack.getLsbD 7 = d.seqValid ∧
    d.pack.extractLsb' 8 13 = d.declLen ∧
    d.pack.extractLsb' 21 2 = d.xStatus.bits ∧
    d.pack.getLsbD 23 = false ∧
    d.pack.extractLsb' 24 3 = d.w ∧
    d.pack.extractLsb' 27 5 = 0 ∧
    d.pack.extractLsb' 32 16 = d.code ∧
    d.pack.extractLsb' 48 16 = d.seq

/-- R66: a consumer reads back from a packed descriptor every field that was packed. -/
def Obligations.UnpackReadsBackPack : Prop :=
  ∀ d : Desc, Desc.unpack d.pack = some d

/-- R71: a reader refuses exactly the 64-bit values that carry a reserved encoding, and exactly the beats that do: `o_kind`
3, or a DESC beat with such a payload. It takes every other beat as it stands on port O. -/
def Obligations.UnpackRefusesReservedExactly : Prop :=
  let reserved (v : Dword) : Prop :=
    v.extractLsb' 0 2 = 3 ∨ v.extractLsb' 21 2 = 3 ∨ v.getLsbD 23 = true ∨ v.extractLsb' 27 5 ≠ 0
  (∀ v : Dword, Desc.unpack v = none ↔ reserved v) ∧
  (∀ (kind : BitVec 2) (data : Dword) (nbytes : BitVec 3) (last : Bool),
    Beat.ofSignals kind data nbytes last = none ↔ kind = 3 ∨ (kind = 0 ∧ reserved data)) ∧
  ∀ b : Beat, (b.kind = .desc → ¬ reserved b.data) → Beat.ofSignals b.kind.bits b.data b.nbytes b.last = some b

/-- Decode and encode agree, for every operation of the table with every operand its encoding admits (R60 to R64, R73,
R132). -/
def Obligations.DecodeOfEncodeIsIdentity : Prop :=
  ∀ i : Instr, i.wellFormed = true → decode (encode i) = .ok i

/-- R62, R82: every frame with a header decodes, to an operation that encodes to that very frame. -/
def Obligations.EveryHeaderedFrameDecodesLosslessly : Prop :=
  ∀ F : List Byte, 2 ≤ F.length → ∃ i : Instr, decode (.frame F) = .ok i ∧ encode i = .frame F

/-- R62: the operation each message type selects, on words written out from the opcode table. -/
def Obligations.TableWordsDecodeToTheirRows : Prop :=
  decodeTableWord 16 0x0000 = some (.decSetCi 0 (.fields 0 [])) ∧
  decodeTableWord 16 0x2004 = some (.decGetCi 4 (.fields 0 [])) ∧
  decodeTableWord 16 0x5FFF = some (.decCiRange 8191 (.fields 0 [])) ∧
  decodeTableWord 16 0x7D50 = some (.decAck 7504 (.fields 0 [])) ∧
  decodeTableWord 16 0x8008 = some (.decData0 8 (.fields 0 [])) ∧
  decodeTableWord 16 0xA005 = some (.decData1 5 (.fields 0 [])) ∧
  decodeTableWord 16 0xDDCC = some (.decData2 7628 (.fields 0 [])) ∧
  decodeTableWord 16 0xFFFF = some (.decData3 8191 (.fields 0 []))

/-- R132, R136 to R140: the latched depth alone selects the extraction class of a data frame, for every 32-bit depth; a
control header has none (R141). -/
def Obligations.DepthSelectsExtractionClass : Prop :=
  ∀ (depth : Word) (word field : Half) (body : List Byte),
    (4 ≤ (msgType word).toNat →
      let item : DataItem := ⟨(msgType word).setWidth 2, declaredLength word, field, body⟩
      ∃ i, decode (.extract depth word field body) = .ok i ∧
        (1 ≤ depth.toNat ∧ depth.toNat ≤ 8 → i = .extW1 depth item) ∧
        (9 ≤ depth.toNat ∧ depth.toNat ≤ 16 → i = .extW2 depth item) ∧
        (17 ≤ depth.toNat ∧ depth.toNat ≤ 24 → i = .extW3 depth item) ∧
        (25 ≤ depth.toNat ∧ depth.toNat ≤ 32 → i = .extW4 depth item) ∧
        (depth.toNat = 0 ∨ 32 < depth.toNat → i = .extDepthErr depth item)) ∧
    ((msgType word).toNat < 4 → decode (.extract depth word field body) = .error .notDataItem)

/-- R79: the frame the reference encoder returns is 4 bytes longer than its payload, its header declares that length, and
the block reports it. (The last is R79's own inference from R75 to R77.) -/
def Obligations.EncodedLengthIsDeclaredLength : Prop :=
  ∀ (P : Params) (t : BitVec 3) (field : Half) (payload G : List Byte),
    (encodeControl t field payload = .ok G ∨ encodeData t field payload = .ok G) →
    G.length = 4 + payload.length ∧ (declaredLength (BitVec.ofNat 16 (memRead G 0 2))).toNat = G.length ∧
    (decodeFrame P G).declLen.toNat = G.length

/-- R78: the reference encoder raises E_LENGTH, and returns no frame, exactly when the payload has 8188 bytes or more; the
largest payload, 8187 bytes, gives the header length field 0x1FFF. No operation of the block raises it (R174): each answers a
next state (that the block has no other stop is log 14's). -/
def Obligations.EncoderRefusesLongPayloads : Prop :=
  (∀ (t : BitVec 3) (field : Half) (payload : List Byte),
    (encodeControl t field payload = .error .lengthExceeded ↔ 8188 ≤ payload.length) ∧
    (encodeData t field payload = .error .lengthExceeded ↔ 8188 ≤ payload.length) ∧
    (payload.length ≤ 8187 → (∃ G, encodeControl t field payload = .ok G) ∧ ∃ G, encodeData t field payload = .ok G) ∧
    (payload.length = 8187 → ∀ G, encodeControl t field payload = .ok G ∨ encodeData t field payload = .ok G →
      G.length = 8191 ∧ memRead G 0 2 % 8192 = 0x1FFF)) ∧
  ∀ (i : Instr) (s : State), ∃ s' : State, exec i s = .next s'

/-- R80, which the spec infers from R76, R77, R100 and R150: the round-trip laws. An encoded control item with a known
code comes out with its type, length, code and parameters; an encoded data item with its type, sequence number and the
samples `Extract(d_lat, B)` gives. -/
def Obligations.EncodedItemsRoundTrip : Prop :=
  ∀ (P : Params) (d : Word) (t : BitVec 3) (field : Half) (payload : List Byte), payload.length ≤ 8187 →
    (t.toNat < 4 → P.knows field = true → ∃ G, encodeControl t field payload = .ok G ∧
      frameOut P d G = markLast
        (⟨.desc, Desc.pack ⟨.ok, true, false, t, false, BitVec.ofNat 13 (4 + payload.length), .none, 0, field, 0⟩, 0, false⟩ ::
          payload.map fun b => ⟨.body, b.setWidth 64, 1, false⟩)) ∧
    (4 ≤ t.toNat → ∃ G, encodeData t field payload = .ok G ∧
      frameOut P d G =
        let (x, w, S) := extract P.sampleSigned d payload
        markLast
          (⟨.desc, Desc.pack ⟨.ok, true, true, t, true, BitVec.ofNat 13 (4 + payload.length), x, w, P.codeNone, field⟩, 0,
            false⟩ :: S.map fun v => ⟨.sample, v.1.setWidth 64, v.2, false⟩))

/-! ## Decoding a frame -/

/-- R91: the header is reported exactly when the frame has at least 2 bytes, whatever else the frame fails on. -/
def Obligations.HeaderReportedFromTwoBytes : Prop :=
  ∀ (P : Params) (F : List Byte),
    (∀ b0 b1 rest, F = b0 :: b1 :: rest →
      (decodeFrame P F).hdrValid = true ∧
      (decodeFrame P F).type.toNat = b1.toNat / 32 ∧
      (decodeFrame P F).declLen.toNat = b0.toNat + 256 * (b1.toNat % 32) ∧
      (decodeFrame P F).isData = decide (128 ≤ b1.toNat)) ∧
    (F.length < 2 →
      (decodeFrame P F).hdrValid = false ∧ (decodeFrame P F).type = 0 ∧ (decodeFrame P F).declLen = 0 ∧
      (decodeFrame P F).isData = false)

/-- R93: the declared length changes nothing but the field that reports it. It bounds no body, and no output beat after the
descriptor depends on it; the body is everything after the 4 fixed bytes. -/
def Obligations.DeclaredLengthIsOnlyReported : Prop :=
  ∀ (P : Params) (d : Word) (t : BitVec 3) (len len' : BitVec 13) (rest : List Byte),
    let F := loByte (headerWord t len) :: hiByte (headerWord t len) :: rest
    let F' := loByte (headerWord t len') :: hiByte (headerWord t len') :: rest
    decodeFrame P F' = { decodeFrame P F with declLen := len' } ∧
    (frameOut P d F').tail = (frameOut P d F).tail ∧
    ((decodeFrame P F).status = .ok → (decodeFrame P F).body = F.drop 4)

/-- R171, R172: E_SHORT is raised exactly by frames under 4 bytes, E_BADCODE exactly by control frames of at least 4
bytes with an unknown code, E_DEPTH (R173) exactly by data frames of at least 4 bytes under a depth outside 1..32. So at
most one is reported (R175), and a frame with one outputs nothing but the descriptor (R154, R155). -/
def Obligations.ErrorsRaisedExactlyByTheirCauses : Prop :=
  ∀ (P : Params) (d : Word) (F : List Byte), ∃ (desc : Desc) (last : Bool) (rest : List Beat),
    frameOut P d F = ⟨.desc, desc.pack, 0, last⟩ :: rest ∧
    (desc.status = .short ↔ F.length < 4) ∧
    (desc.status = .badCode ↔
      ∃ b0 b1 b2 b3 body, F = b0 :: b1 :: b2 :: b3 :: body ∧ b1.toNat / 32 ≤ 3 ∧ P.knows (le16 b2 b3) = false) ∧
    (desc.xStatus = .depthErr ↔
      ∃ b0 b1 b2 b3 body, F = b0 :: b1 :: b2 :: b3 :: body ∧ 4 ≤ b1.toNat / 32 ∧ (d.toNat = 0 ∨ 32 < d.toNat)) ∧
    (desc.status ≠ .ok ∨ desc.xStatus = .depthErr → rest = [])

/-- R156: every frame's output is its descriptor first, payload beats after it, and `o_last` on exactly the final beat. -/
def Obligations.OutputIsDescriptorFirstLastOnce : Prop :=
  ∀ (P : Params) (d : Word) (F : List Byte),
    (∃ b bs, frameOut P d F = b :: bs ∧ b.kind = .desc ∧ ∀ x ∈ bs, x.kind ≠ .desc) ∧
    (∃ pre b, frameOut P d F = pre ++ [b] ∧ b.last = true ∧ ∀ x ∈ pre, x.last = false)

/-- R94: for an OK control frame, and for a data frame whose `x_status` is OK, the frame's byte count is 4 plus the bytes its
payload beats carry. -/
def Obligations.PayloadBytesCountTheFrame : Prop :=
  ∀ (P : Params) (d : Word) (F : List Byte), (decodeFrame P F).status = .ok →
    ((decodeFrame P F).isData = true → 1 ≤ d.toNat ∧ d.toNat ≤ 32) →
    F.length = 4 + ((frameOut P d F).map fun b => b.nbytes.toNat).sum

/-! ## Control-item frames -/

/-- R153, DEC_SET_CI, DEC_GET_CI, DEC_CI_RANGE, DEC_ACK on a known code at a frame boundary: one BODY beat a body byte,
after the descriptor. The next state in full, so every register not named keeps its value. The header registers, the
latched depth and the byte index are those of log 23, and the index 0 between frames is log 5's. -/
def Obligations.KnownControlFrameOutputsItsBody : Prop :=
  ∀ (s : State) (len : BitVec 13) (code : Half) (body : List Byte),
    s.phase = .idle → Config.params.knows code = true →
    let after (t : BitVec 3) : State :=
      { s with
        dLat := s.cfg
        hdrLo := loByte (headerWord t len)
        word := headerWord t len
        fldLo := loByte code
        idx := 0
        oq := s.oq ++ markLast
          (⟨.desc, Desc.pack ⟨.ok, true, false, t, false, len, .none, 0, code, 0⟩, 0, false⟩ ::
            body.map fun b => ⟨.body, b.setWidth 64, 1, false⟩) }
    exec (.decSetCi len (.fields code body)) s = .next (after 0) ∧
    exec (.decGetCi len (.fields code body)) s = .next (after 1) ∧
    exec (.decCiRange len (.fields code body)) s = .next (after 2) ∧
    exec (.decAck len (.fields code body)) s = .next (after 3)

/-- R155, the BADCODE half, with R103: an unknown code gives the descriptor with the code as received, and nothing else.
(The in-flight registers are those of log 23, the byte index 0 between frames is log 5's.) -/
def Obligations.UnknownCodeOutputsDescriptorAlone : Prop :=
  ∀ (s : State) (len : BitVec 13) (code : Half) (body : List Byte),
    s.phase = .idle → Config.params.knows code = false →
    let after (t : BitVec 3) : State :=
      { s with
        dLat := s.cfg
        hdrLo := loByte (headerWord t len)
        word := headerWord t len
        fldLo := loByte code
        idx := 0
        oq := s.oq ++ [⟨.desc, Desc.pack ⟨.badCode, true, false, t, false, len, .none, 0, code, 0⟩, 0, true⟩] }
    exec (.decSetCi len (.fields code body)) s = .next (after 0) ∧
    exec (.decGetCi len (.fields code body)) s = .next (after 1) ∧
    exec (.decCiRange len (.fields code body)) s = .next (after 2) ∧
    exec (.decAck len (.fields code body)) s = .next (after 3)

/-- R108, D3: code 9999 is outside every admissible `KNOWN_CODES`, and the constraints D3 puts on the open parameters hold
of this model's. So an acknowledge with code 9999 always fails with BADCODE. -/
def Obligations.Code9999AlwaysFails : Prop :=
  Config.params.Admissible Config.receiverStateCode ∧
  ∀ (s : State) (len : BitVec 13) (body : List Byte), s.phase = .idle →
    ∃ t : State, exec (.decAck len (.fields 0x270F body)) s = .next t ∧
      t.oq = s.oq ++ [⟨.desc, Desc.pack ⟨.badCode, true, false, 3, false, len, .none, 0, 0x270F, 0⟩, 0, true⟩]

/-- R101, all eight DEC_* operations: a frame of 2 or 3 bytes at a frame boundary gives SHORT with the header reported,
and nothing else. (The in-flight registers are those of log 23, the byte index 0 between frames is log 5's.) -/
def Obligations.ShortFrameOutputsDescriptorAlone : Prop :=
  ∀ (s : State) (len : BitVec 13) (b : Byte), s.phase = .idle →
    let after (t : BitVec 3) (fld : Byte) : State :=
      { s with
        dLat := s.cfg
        hdrLo := loByte (headerWord t len)
        word := headerWord t len
        fldLo := fld
        idx := 0
        oq := s.oq ++ [⟨.desc, Desc.pack ⟨.short, true, decide (4 ≤ t.toNat), t, false, len, .none, 0, 0, 0⟩, 0, true⟩] }
    (exec (.decSetCi len .empty) s = .next (after 0 s.fldLo) ∧ exec (.decSetCi len (.part b)) s = .next (after 0 b)) ∧
    (exec (.decGetCi len .empty) s = .next (after 1 s.fldLo) ∧ exec (.decGetCi len (.part b)) s = .next (after 1 b)) ∧
    (exec (.decCiRange len .empty) s = .next (after 2 s.fldLo) ∧ exec (.decCiRange len (.part b)) s = .next (after 2 b)) ∧
    (exec (.decAck len .empty) s = .next (after 3 s.fldLo) ∧ exec (.decAck len (.part b)) s = .next (after 3 b)) ∧
    (exec (.decData0 len .empty) s = .next (after 4 s.fldLo) ∧ exec (.decData0 len (.part b)) s = .next (after 4 b)) ∧
    (exec (.decData1 len .empty) s = .next (after 5 s.fldLo) ∧ exec (.decData1 len (.part b)) s = .next (after 5 b)) ∧
    (exec (.decData2 len .empty) s = .next (after 6 s.fldLo) ∧ exec (.decData2 len (.part b)) s = .next (after 6 b)) ∧
    (exec (.decData3 len .empty) s = .next (after 7 s.fldLo) ∧ exec (.decData3 len (.part b)) s = .next (after 7 b))

/-! ## Data-item frames and extraction -/

/-- R154, DEC_DATA0 to DEC_DATA3 at a frame boundary: under a depth in 1..32 one SAMPLE beat a sample of `Extract`,
under any other the descriptor alone. The next state in full. (The in-flight registers are those of log 23, the byte
index 0 between frames is log 5's.) -/
def Obligations.DataFrameOutputsItsSamples : Prop :=
  ∀ (s : State) (len : BitVec 13) (seq : Half) (body : List Byte), s.phase = .idle →
    let desc (t : BitVec 3) (x : XStatus) (w : BitVec 3) : Desc :=
      ⟨.ok, true, true, t, true, len, x, w, Config.params.codeNone, seq⟩
    let latched (t : BitVec 3) : State :=
      { s with
        dLat := s.cfg
        hdrLo := loByte (headerWord t len)
        word := headerWord t len
        fldLo := loByte seq
        idx := 0 }
    let after (t : BitVec 3) : State :=
      if 1 ≤ s.cfg.toNat ∧ s.cfg.toNat ≤ 32 then
        { latched t with
          w := chunkWidth s.cfg
          acc := 0
          m := 0
          oq := s.oq ++ markLast
            (⟨.desc, (desc t .ok (chunkWidth s.cfg)).pack, 0, false⟩ ::
              (extract false s.cfg body).2.2.map fun v => ⟨.sample, v.1.setWidth 64, v.2, false⟩) }
      else { latched t with oq := s.oq ++ [⟨.desc, (desc t .depthErr 0).pack, 0, true⟩] }
    exec (.decData0 len (.fields seq body)) s = .next (after 4) ∧
    exec (.decData1 len (.fields seq body)) s = .next (after 5) ∧
    exec (.decData2 len (.fields seq body)) s = .next (after 6) ∧
    exec (.decData3 len (.fields seq body)) s = .next (after 7)

/-- R109, "then Extract(d_lat, D.body)": a data frame at a frame boundary runs the extraction class that CFG's depth selects,
once its header is latched. -/
def Obligations.DataFrameRunsSelectedClass : Prop :=
  ∀ (s : State) (len : BitVec 13) (seq : Half) (body : List Byte), s.phase = .idle →
    let latched (sub : BitVec 2) : State := latchFrame (headerWord (dataType sub) len) (.fields seq body) s
    exec (.decData0 len (.fields seq body)) s = exec (decodeDepth s.cfg ⟨0, len, seq, body⟩) (latched 0) ∧
    exec (.decData1 len (.fields seq body)) s = exec (decodeDepth s.cfg ⟨1, len, seq, body⟩) (latched 1) ∧
    exec (.decData2 len (.fields seq body)) s = exec (decodeDepth s.cfg ⟨2, len, seq, body⟩) (latched 2) ∧
    exec (.decData3 len (.fields seq body)) s = exec (decodeDepth s.cfg ⟨3, len, seq, body⟩) (latched 3)

/-- EXT_W1 to EXT_W4 as operations of the block: the descriptor with `x_status` OK and the class's width, then the
samples of the body under that width, for any state. The next state in full. (The form of EXT_* as operations is log
11's, the byte index 0 after the frame log 5's.) -/
def Obligations.ExtractionClassesOutputSamples : Prop :=
  ∀ (depth : Word) (item : DataItem) (s : State),
    let after (w : BitVec 3) : State :=
      { s with
        phase := .idle
        idx := 0
        w := w
        acc := 0
        m := 0
        oq := s.oq ++ markLast
          (⟨.desc, Desc.pack
              ⟨.ok, true, true, BitVec.ofNat 3 (4 + item.sub.toNat), true, item.declLen, .ok, w, Config.params.codeNone,
                item.seq⟩, 0, false⟩ ::
            (samplesOf false w item.body).map fun v => ⟨.sample, v.1.setWidth 64, v.2, false⟩) }
    exec (.extW1 depth item) s = .next (after 1) ∧
    exec (.extW2 depth item) s = .next (after 2) ∧
    exec (.extW3 depth item) s = .next (after 3) ∧
    exec (.extW4 depth item) s = .next (after 4)

/-- EXT_DEPTH_ERR as an operation of the block (R140): `x_status` DEPTH_ERR, width 0, status OK, no samples. The next
state in full. (The form of EXT_* as operations is log 11's, the byte index 0 after the frame log 5's.) -/
def Obligations.DepthErrorOutputsDescriptorAlone : Prop :=
  ∀ (depth : Word) (item : DataItem) (s : State),
    exec (.extDepthErr depth item) s = .next
      { s with
        phase := .idle
        idx := 0
        oq := s.oq ++
          [⟨.desc, Desc.pack
            ⟨.ok, true, true, BitVec.ofNat 3 (4 + item.sub.toNat), true, item.declLen, .depthErr, 0, Config.params.codeNone,
              item.seq⟩, 0, true⟩] }

/-- R131: extraction fails exactly under depth 0 or above 32, with width 0 and no samples, whatever the body. -/
def Obligations.ExtractFailsExactlyOutOfRange : Prop :=
  ∀ (signed : Bool) (d : Word) (B : List Byte),
    (d.toNat = 0 ∨ 32 < d.toNat → extract signed d B = (.depthErr, 0, [])) ∧
    (1 ≤ d.toNat → d.toNat ≤ 32 → extract signed d B = (.ok, chunkWidth d, samplesOf signed (chunkWidth d) B))

/-- R132: the width of each depth in 1..32, as the ceiling of d / 8 and as the rule's table. -/
def Obligations.WidthIsCeilingOfDepthOverEight : Prop :=
  ∀ d : Word, 1 ≤ d.toNat → d.toNat ≤ 32 →
    (chunkWidth d).toNat = (d.toNat + 7) / 8 ∧
    (d.toNat ≤ 8 → chunkWidth d = 1) ∧
    (9 ≤ d.toNat → d.toNat ≤ 16 → chunkWidth d = 2) ∧
    (17 ≤ d.toNat → d.toNat ≤ 24 → chunkWidth d = 3) ∧
    (25 ≤ d.toNat → chunkWidth d = 4)

/-- R133: chunks are consecutive from offset 0, without gap or overlap, every chunk but the last has exactly w bytes, and
there are ceil(k / w) of them, in order, and as many samples. -/
def Obligations.ChunksPartitionTheBody : Prop :=
  ∀ (w : Nat) (B : List Byte), 1 ≤ w →
    (∀ (signed : Bool) (v : BitVec 3), v.toNat = w →
      samplesOf signed v B = (chunks w B).map (sampleOf signed) ∧ (samplesOf signed v B).length = (B.length + w - 1) / w) ∧
    (chunks w B).flatten = B ∧
    (chunks w B).length = (B.length + w - 1) / w ∧
    ∀ i, i < (chunks w B).length →
      (chunks w B)[i]? = some ((B.drop (w * i)).take w) ∧
      (i + 1 < (chunks w B).length → ((B.drop (w * i)).take w).length = w)

/-- R135: where w does not divide the body's length, the last sample is formed from the remaining k mod w bytes alone and
carries that count. -/
def Obligations.ShortFinalChunkStandsAlone : Prop :=
  ∀ (signed : Bool) (w : BitVec 3) (B : List Byte), 1 ≤ w.toNat → w.toNat ≤ 4 → B.length % w.toNat ≠ 0 →
    ∃ pre, samplesOf signed w B =
      pre ++ [(sampleValue signed (B.drop (B.length - B.length % w.toNat)), BitVec.ofNat 3 (B.length % w.toNat))]

/-- R134: the value of a chunk of 1 to 4 bytes, as the sum of its bytes, zero-extended or sign-extended from its own top
bit; for 4 bytes both give the same 32 bits. -/
def Obligations.SampleValueIsExtendedChunk : Prop :=
  ∀ C : List Byte, 1 ≤ C.length → C.length ≤ 4 →
    let u := ((List.range C.length).map fun j => (C.getD j 0).toNat * 2 ^ (8 * j)).sum
    (sampleValue false C).toNat = u ∧
    (sampleValue true C).toInt = (if u < 2 ^ (8 * C.length - 1) then (u : Int) else (u : Int) - 2 ^ (8 * C.length)) ∧
    (C.length = 4 → sampleValue true C = sampleValue false C)

/-- R136: under width 1 each body byte is one sample. -/
def Obligations.WidthOneSamplesAreBytes : Prop :=
  ∀ (signed : Bool) (B : List Byte),
    samplesOf signed 1 B = B.map fun b => (if signed then b.signExtend 32 else b.setWidth 32, 1)

/-- R137: under width 2 each pair of body bytes is one sample, and an odd last byte is one of its own. -/
def Obligations.WidthTwoSamplesArePairs : Prop :=
  ∀ (signed : Bool),
    let ext {n : Nat} (v : BitVec n) : Word := if signed then v.signExtend 32 else v.setWidth 32
    samplesOf signed 2 [] = [] ∧
    (∀ a, samplesOf signed 2 [a] = [(ext a, 1)]) ∧
    ∀ a b B, samplesOf signed 2 (a :: b :: B) = (ext (b ++ a), 2) :: samplesOf signed 2 B

/-- R138: under width 3 each triple of body bytes is one sample, and a rest of 1 or 2 bytes is one of its own. -/
def Obligations.WidthThreeSamplesAreTriples : Prop :=
  ∀ (signed : Bool),
    let ext {n : Nat} (v : BitVec n) : Word := if signed then v.signExtend 32 else v.setWidth 32
    samplesOf signed 3 [] = [] ∧
    (∀ a, samplesOf signed 3 [a] = [(ext a, 1)]) ∧
    (∀ a b, samplesOf signed 3 [a, b] = [(ext (b ++ a), 2)]) ∧
    ∀ a b c B, samplesOf signed 3 (a :: b :: c :: B) = (ext (c ++ b ++ a), 3) :: samplesOf signed 3 B

/-- R139: under width 4 each four body bytes are one sample, the same under both settings of SAMPLE_SIGNED, and a rest of 1
to 3 bytes is one of its own. -/
def Obligations.WidthFourSamplesAreWords : Prop :=
  ∀ (signed : Bool),
    let ext {n : Nat} (v : BitVec n) : Word := if signed then v.signExtend 32 else v.setWidth 32
    samplesOf signed 4 [] = [] ∧
    (∀ a, samplesOf signed 4 [a] = [(ext a, 1)]) ∧
    (∀ a b, samplesOf signed 4 [a, b] = [(ext (b ++ a), 2)]) ∧
    (∀ a b c, samplesOf signed 4 [a, b, c] = [(ext (c ++ b ++ a), 3)]) ∧
    ∀ a b c d B, samplesOf signed 4 (a :: b :: c :: d :: B) = (d ++ c ++ b ++ a, 4) :: samplesOf signed 4 B

/-! ## The frame step and the byte-serial machine -/

/-- R150: an operation decoded from a frame, run at a frame boundary, appends exactly `Out(F, d)` to OQ with d the depth CFG
holds, leaves CFG as it was and the block at a frame boundary. -/
def Obligations.DecodedFrameRunsTheFrameStep : Prop :=
  ∀ (F : List Byte) (i : Instr) (s : State), decode (.frame F) = .ok i → s.phase = .idle →
    ∃ t : State, exec i s = .next t ∧ t.oq = s.oq ++ frameOut Config.params s.cfg F ∧ t.cfg = s.cfg ∧ t.phase = .idle

/-- R161, which the spec infers from R150 and R160: for every frame and every latched depth, and for every setting of
the parameters, the byte-serial machine emits exactly `Out(F, d_lat)` between IDLE and the next IDLE. -/
def Obligations.SerialMachineEmitsFrameOut : Prop :=
  ∀ (P : Params) (F : List Byte) (s : State), F ≠ [] → s.phase = .idle →
    (acceptBeats P (frameBeats F) s).oq = s.oq ++ frameOut P s.cfg F ∧
    (acceptBeats P (frameBeats F) s).phase = .idle

/-- The two levels are one machine: in every state, of every phase, a DEC_* operation does to the whole state what its bytes
do to the byte-serial machine (R150, R160, R161; inside a frame, log 10). -/
def Obligations.FrameOperationsRefineSerialMachine : Prop :=
  ∀ (F : List Byte) (i : Instr) (s : State), decode (.frame F) = .ok i →
    exec i s = .next (acceptBeats Config.params (frameBeats F) s)

/-- The same for EXT_*: where a data frame has all but the last of its fixed bytes in, the extraction operation that the
latched depth selects does to the whole state what the rest of the bytes do (R136 to R140, R160; log 11). -/
def Obligations.ExtractionRefinesSerialMachine : Prop :=
  ∀ (hi : Byte) (body : List Byte) (i : Instr) (s : State), s.phase = .fld1 →
    decode (.extract s.dLat s.word (le16 s.fldLo hi) body) = .ok i →
    exec i s = .next (acceptBeats Config.params (frameBeats (hi :: body)) s)

/-- R28: the depth is latched when a frame's first byte is accepted, the rest of the frame uses the latched depth and never
CFG, and a write accepted together with a first byte leaves that frame the value CFG held before. The last clause is about the
turn `byteWithConfig`, the model's form of "accepted together" (log 15) among the turns of log 6. It leaves out a first byte
that is also its frame's last while OQ holds beats: that byte emits a beat, and so it may wait (R162, log 8). -/
def Obligations.DepthIsLatchedAtFirstByte : Prop :=
  (∀ (P : Params) (b : Byte) (L : Bool) (s : State), s.phase = .idle → (accept P b L s).dLat = s.cfg) ∧
  (∀ (P : Params) (b : Byte) (L : Bool) (s : State) (v : Word), s.phase ≠ .idle →
    (accept P b L s).dLat = s.dLat ∧ accept P b L { s with cfg := v } = { accept P b L s with cfg := v }) ∧
  (∀ (s : State) (ts : List Turn) (f : FBeat) (fs : List FBeat) (v : Word) (cs : List CAccess),
    s.turns = .byteWithConfig :: ts → s.fIn = f :: fs → s.cIn = ⟨true, 0, v⟩ :: cs → s.phase = .idle →
    f.last = false ∨ s.oq = [] → ∃ t, step s = .next t ∧ t.dLat = s.cfg ∧ t.cfg = v)

/-- R198: bytes that do not end a frame never bring the block back to IDLE. -/
def Obligations.UnterminatedFrameNeverReturnsToIdle : Prop :=
  ∀ (P : Params) (bs : List Byte) (s : State), bs ≠ [] → (acceptBeats P (openBeats bs) s).phase ≠ .idle

/-- R162: a byte that emits no beat, or that arrives while port O holds none, is accepted; else it is accepted or stays on the
port as the free buffering decides (log 8). Either way the choice changes nothing else but the number of the next free
value. -/
def Obligations.ByteAcceptedOrLeftOnThePort : Prop :=
  ∀ (s : State) (f : FBeat) (fs : List FBeat), s.fIn = f :: fs →
    ((serialNext Config.params f.data f.last s).2 = none ∨ s.oq = [] →
      acceptByte s = accept Config.params f.data f.last { s with fIn := fs }) ∧
    (acceptByte s = accept Config.params f.data f.last { s with fIn := fs } ∨
      acceptByte s = accept Config.params f.data f.last { s with fIn := fs, freeIx := s.freeIx + 1 } ∨
      acceptByte s = { s with freeIx := s.freeIx + 1 })

/-! ## Steps -/

/-- A step runs the decoded instruction: where the fetch brings a transfer that decodes, the step is `exec` of what it
decodes to, on the state with the transfer taken from its port. -/
def Obligations.StepRunsDecodedInstruction : Prop :=
  ∀ (s s' : State) (x : Transfer) (i : Instr), fetch s = .op x s' → decode x = .ok i → step s = exec i s'

/-- What a frame turn fetches (R150, R163): at a frame boundary with port O free, the whole frame at the head of port F. -/
def Obligations.FrameTurnFetchesWholeFrame : Prop :=
  ∀ (s : State) (ts : List Turn) (F : List Byte) (rest : List FBeat), F ≠ [] →
    s.turns = .frame :: ts → s.fIn = frameBeats F ++ rest → s.phase = .idle → s.oq = [] →
    fetch s = .op (.frame F) { s with turns := ts, fIn := rest }

/-- R83, R150, R101: a FRAME line offered to an idle block with port O free is one step that outputs `Out(F, CFG)`, whatever
its length, one byte included (log 9). -/
def Obligations.FrameLineOutputsFrameOut : Prop :=
  ∀ (s : State) (F : List Byte), F ≠ [] → s.turns = [] → s.fIn = [] → s.phase = .idle → s.oq = [] →
    ∃ t, step ((Stimulus.frame F).offer s) = .next t ∧ t.oq = frameOut Config.params s.cfg F ∧
      t.fIn = [] ∧ t.turns = [] ∧ t.cfg = s.cfg ∧ t.phase = .idle

/-- The word of a table row, placed for the next step, is decoded and run by it, from any state (log 12). -/
def Obligations.PlacedTableWordIsRun : Prop :=
  ∀ (s : State) (nbits w : Nat), ∃ i : Instr, decodeTableWord nbits w = some i ∧
    step (s.withFetchWord nbits w) = exec i { s with phase := .idle, idx := 0, oq := [] }

/-- Nothing the environment offers makes the block stop; every state steps to a next state. R150 and R176 say so of
frames and their errors. That the block never faults otherwise is log 14's, and that a turn with nothing to do, a take
on an empty OQ included, waits is the model's choice (log 16). -/
def Obligations.EveryStateHasNextState : Prop :=
  ∀ s : State, ∃ t : State, step s = .next t

/-- R49, R25, R190: in every step OQ changes only by beats appended at its end, by its head going to the downstream, or
by a reset that empties it. That the head taken (R163) joins `delivered`, and that nothing else changes it, speaks of
the model's own record (log 13). -/
def Obligations.OutputQueueIsFifo : Prop :=
  ∀ s t : State, step s = .next t →
    (t.delivered = s.delivered ∧ ∃ bs, t.oq = s.oq ++ bs) ∨
    (∃ b, s.oq = b :: t.oq ∧ t.delivered = s.delivered ++ [b]) ∨
    ((∃ ts, s.turns = .rst :: ts) ∧ t.oq = [] ∧ t.delivered = s.delivered)

/-- R163 `Take`, R49: a downstream that takes as often as OQ has beats receives all of them, in order. The list
`delivered` that receives them is the model's own record (log 13), and the takes are turns (log 6). -/
def Obligations.TakingDrainsTheQueueInOrder : Prop :=
  ∀ (s : State) (ts : List Turn), s.turns = List.replicate s.oq.length .take ++ ts →
    Host.Core.run Sys2Proof.core s.oq.length s =
      .next { s with turns := ts, oq := [], delivered := s.delivered ++ s.oq }

/-- R182, R50: one instance's step leaves every other instance as it was; and no step renumbers an instance, so each keeps
free values of its own (the numbers are the model's own, log 20). -/
def Obligations.InstancesDoNotInterfere : Prop :=
  ∀ (k : Nat) (sys sys' : List State), stepInstance k sys = .next sys' →
    (∀ j, j ≠ k → sys'[j]? = sys[j]?) ∧ sys'.map (·.instanceNo) = sys.map (·.instanceNo)

/-- The invariant holds at reset. That the byte index is 0 there is log 5's inference; that `delivered` is empty speaks
of the model's own record (log 13). -/
def Obligations.InvariantHoldsAtReset : Prop := State.reset.Inv

/-- Every step keeps the invariant: only legal beats with no reserved encoding (R68, R71), frames closed by exactly one
`o_last` and opened by a descriptor (R156, R49), and in-flight registers that fit the phase (R21, R27, R160). That the
byte index is 0 in IDLE is log 5's inference, that whole-frame operations leave the registers so is log 23's, and
`delivered`, whose beats are legal too, is the model's own record (log 13). -/
def Obligations.StepKeepsInvariant : Prop :=
  ∀ s t : State, s.Inv → step s = .next t → t.Inv
end

