-- ==== Sys2Proof/Laws/Config.lean ====
section
/-! SUPPORT. What is known of the free parameters: the constraints of spec/92_eei_decisions.md D3, and nothing more. -/

namespace Sys2Proof

/-- No index gives the code 9999. -/
theorem Config.codeAt_ne_9999 (i : Fin 65535) : Config.codeAt i ≠ (9999 : Half) := by
  intro h
  have hi := i.isLt
  have h' := congrArg BitVec.toNat h
  unfold Config.codeAt at h'
  split at h' <;> simp [BitVec.toNat_ofNat] at h' <;> omega

/-- Every code but 9999 has an index. -/
theorem Config.codeAt_surj (c : Half) (h : c ≠ 9999) : ∃ i, Config.codeAt i = c := by
  have hc := c.isLt
  have hne : c.toNat ≠ 9999 := fun e => h (BitVec.eq_of_toNat_eq (by simpa using e))
  by_cases hlt : c.toNat < 9999
  · refine ⟨⟨c.toNat, by omega⟩, ?_⟩
    simp [Config.codeAt, hlt]
  · refine ⟨⟨c.toNat - 1, by omega⟩, ?_⟩
    have h1 : ¬ c.toNat - 1 < 9999 := by omega
    have h2 : c.toNat - 1 + 1 = c.toNat := by omega
    simp [Config.codeAt, h1, h2]

/-- `CODE_NONE` passes the code check. -/
theorem Config.params_knows_codeNone : Config.params.knows Config.params.codeNone = true := by
  simp [Params.knows, Config.params]

/-- The code check in terms of membership. -/
theorem Params.knows_iff (P : Params) (c : Half) : P.knows c = true ↔ c ∈ P.knownCodes := by
  simp [Params.knows]

@[simp] theorem Config.params_sampleSigned : Config.params.sampleSigned = false := rfl

end Sys2Proof
end

