-- ==== Sys2Proof/Laws/Decode.lean ====
section
/-! SUPPORT. The bit fields of the header and of 16-bit fields, and the bytes they are made of. -/

namespace Sys2Proof

@[simp] theorem loByte_le16 (a b : Byte) : loByte (le16 a b) = a := by
  apply BitVec.eq_of_getLsbD_eq
  intro i hi
  simp [loByte, le16, hi]

@[simp] theorem hiByte_le16 (a b : Byte) : hiByte (le16 a b) = b := by
  apply BitVec.eq_of_getLsbD_eq
  intro i hi
  have h1 : 8 + i < 16 := by omega
  have h2 : i < 16 := by omega
  simp [hiByte, le16, hi, h1, h2]

@[simp] theorem le16_loByte_hiByte (v : Half) : le16 (loByte v) (hiByte v) = v := by
  apply BitVec.eq_of_getLsbD_eq
  intro i hi
  by_cases h : i < 8
  · simp [loByte, hiByte, le16, hi, h]
  · have h1 : i - 8 < 8 := by omega
    have h2 : 8 + (i - 8) = i := by omega
    simp [loByte, hiByte, le16, hi, h, h1, h2]

@[simp] theorem msgType_headerWord (t : BitVec 3) (len : BitVec 13) : msgType (headerWord t len) = t := by
  apply BitVec.eq_of_getLsbD_eq
  intro i hi
  have h1 : 13 + i < 16 := by omega
  simp [msgType, headerWord, hi, h1]

@[simp] theorem declaredLength_headerWord (t : BitVec 3) (len : BitVec 13) :
    declaredLength (headerWord t len) = len := by
  apply BitVec.eq_of_getLsbD_eq
  intro i hi
  simp [declaredLength, headerWord, hi]
  omega

@[simp] theorem headerWord_fields (word : Half) : headerWord (msgType word) (declaredLength word) = word := by
  apply BitVec.eq_of_getLsbD_eq
  intro i hi
  by_cases h : i < 13
  · simp [msgType, declaredLength, headerWord, hi, h]
  · have h1 : i - 13 < 3 := by omega
    have h2 : 13 + (i - 13) = i := by omega
    simp [msgType, declaredLength, headerWord, hi, h, h1, h2]

@[simp] theorem isDataType_dataType : ∀ sub : BitVec 2, isDataType (dataType sub) = true := by decide

@[simp] theorem dataType_toSub : ∀ sub : BitVec 2, (dataType sub).setWidth 2 = sub := by decide

/-- A data type is 4 plus its data item number. -/
theorem dataType_of_isDataType : ∀ t : BitVec 3, isDataType t = true → dataType (t.setWidth 2) = t := by decide

@[simp] theorem tailOf_bytes (tail : Tail) : tailOf tail.bytes = tail := by
  cases tail <;> simp [Tail.bytes, tailOf]

@[simp] theorem bytes_tailOf (bs : List Byte) : (tailOf bs).bytes = bs := by
  match bs with
  | [] => rfl
  | [_] => rfl
  | _ :: _ :: _ => simp [tailOf, Tail.bytes]

/-- A frame of two bytes or more is the frame bytes of its header's fields and its tail. -/
theorem frameBytes_of_bytes (b0 b1 : Byte) (rest : List Byte) :
    frameBytes (msgType (le16 b0 b1)) (declaredLength (le16 b0 b1)) (tailOf rest) = b0 :: b1 :: rest := by
  simp [frameBytes]

theorem bytesOfNat_length (n w : Nat) : (bytesOfNat n w).length = n := by
  induction n generalizing w with
  | zero => rfl
  | succ n ih => simp [bytesOfNat, ih]

/-- The frame of a table word has its four fixed bytes. -/
theorem four_le_tableFrame_length (nbits w : Nat) : 4 ≤ (tableFrame nbits w).length := by
  simp [tableFrame, bytesOfNat_length]

end Sys2Proof
end

