-- ==== Sys2Proof/Laws/State.lean ====
section
/-! SUPPORT. One lemma for each field of State and each operation that updates State: what the field holds afterwards. Each
is true by rfl, so later proofs need not unfold a record update. -/

namespace Sys2Proof.Machine

/-! `emit` changes OQ alone. -/

@[simp] theorem emit_cfg (bs : List Beat) (s : State) : (emit bs s).cfg = s.cfg := rfl
@[simp] theorem emit_oq (bs : List Beat) (s : State) : (emit bs s).oq = s.oq ++ bs := rfl
@[simp] theorem emit_phase (bs : List Beat) (s : State) : (emit bs s).phase = s.phase := rfl
@[simp] theorem emit_idx (bs : List Beat) (s : State) : (emit bs s).idx = s.idx := rfl
@[simp] theorem emit_hdrLo (bs : List Beat) (s : State) : (emit bs s).hdrLo = s.hdrLo := rfl
@[simp] theorem emit_word (bs : List Beat) (s : State) : (emit bs s).word = s.word := rfl
@[simp] theorem emit_fldLo (bs : List Beat) (s : State) : (emit bs s).fldLo = s.fldLo := rfl
@[simp] theorem emit_dLat (bs : List Beat) (s : State) : (emit bs s).dLat = s.dLat := rfl
@[simp] theorem emit_w (bs : List Beat) (s : State) : (emit bs s).w = s.w := rfl
@[simp] theorem emit_acc (bs : List Beat) (s : State) : (emit bs s).acc = s.acc := rfl
@[simp] theorem emit_m (bs : List Beat) (s : State) : (emit bs s).m = s.m := rfl
@[simp] theorem emit_fIn (bs : List Beat) (s : State) : (emit bs s).fIn = s.fIn := rfl
@[simp] theorem emit_cIn (bs : List Beat) (s : State) : (emit bs s).cIn = s.cIn := rfl
@[simp] theorem emit_turns (bs : List Beat) (s : State) : (emit bs s).turns = s.turns := rfl
@[simp] theorem emit_replies (bs : List Beat) (s : State) : (emit bs s).replies = s.replies := rfl
@[simp] theorem emit_delivered (bs : List Beat) (s : State) : (emit bs s).delivered = s.delivered := rfl
@[simp] theorem emit_freeIx (bs : List Beat) (s : State) : (emit bs s).freeIx = s.freeIx := rfl
@[simp] theorem emit_instanceNo (bs : List Beat) (s : State) : (emit bs s).instanceNo = s.instanceNo := rfl

/-! `endFrame` changes the phase and the byte index. -/

@[simp] theorem endFrame_cfg (s : State) : (endFrame s).cfg = s.cfg := rfl
@[simp] theorem endFrame_oq (s : State) : (endFrame s).oq = s.oq := rfl
@[simp] theorem endFrame_phase (s : State) : (endFrame s).phase = .idle := rfl
@[simp] theorem endFrame_idx (s : State) : (endFrame s).idx = 0 := rfl
@[simp] theorem endFrame_hdrLo (s : State) : (endFrame s).hdrLo = s.hdrLo := rfl
@[simp] theorem endFrame_word (s : State) : (endFrame s).word = s.word := rfl
@[simp] theorem endFrame_fldLo (s : State) : (endFrame s).fldLo = s.fldLo := rfl
@[simp] theorem endFrame_dLat (s : State) : (endFrame s).dLat = s.dLat := rfl
@[simp] theorem endFrame_w (s : State) : (endFrame s).w = s.w := rfl
@[simp] theorem endFrame_acc (s : State) : (endFrame s).acc = s.acc := rfl
@[simp] theorem endFrame_m (s : State) : (endFrame s).m = s.m := rfl
@[simp] theorem endFrame_fIn (s : State) : (endFrame s).fIn = s.fIn := rfl
@[simp] theorem endFrame_cIn (s : State) : (endFrame s).cIn = s.cIn := rfl
@[simp] theorem endFrame_turns (s : State) : (endFrame s).turns = s.turns := rfl
@[simp] theorem endFrame_replies (s : State) : (endFrame s).replies = s.replies := rfl
@[simp] theorem endFrame_delivered (s : State) : (endFrame s).delivered = s.delivered := rfl
@[simp] theorem endFrame_freeIx (s : State) : (endFrame s).freeIx = s.freeIx := rfl
@[simp] theorem endFrame_instanceNo (s : State) : (endFrame s).instanceNo = s.instanceNo := rfl

/-! `countByte` changes the byte index alone. -/

@[simp] theorem countByte_cfg (L : Bool) (s : State) : (countByte L s).cfg = s.cfg := rfl
@[simp] theorem countByte_oq (L : Bool) (s : State) : (countByte L s).oq = s.oq := rfl
@[simp] theorem countByte_phase (L : Bool) (s : State) : (countByte L s).phase = s.phase := rfl
@[simp] theorem countByte_idx (L : Bool) (s : State) : (countByte L s).idx = if L then 0 else s.idx + 1 := rfl
@[simp] theorem countByte_hdrLo (L : Bool) (s : State) : (countByte L s).hdrLo = s.hdrLo := rfl
@[simp] theorem countByte_word (L : Bool) (s : State) : (countByte L s).word = s.word := rfl
@[simp] theorem countByte_fldLo (L : Bool) (s : State) : (countByte L s).fldLo = s.fldLo := rfl
@[simp] theorem countByte_dLat (L : Bool) (s : State) : (countByte L s).dLat = s.dLat := rfl
@[simp] theorem countByte_w (L : Bool) (s : State) : (countByte L s).w = s.w := rfl
@[simp] theorem countByte_acc (L : Bool) (s : State) : (countByte L s).acc = s.acc := rfl
@[simp] theorem countByte_m (L : Bool) (s : State) : (countByte L s).m = s.m := rfl
@[simp] theorem countByte_fIn (L : Bool) (s : State) : (countByte L s).fIn = s.fIn := rfl
@[simp] theorem countByte_cIn (L : Bool) (s : State) : (countByte L s).cIn = s.cIn := rfl
@[simp] theorem countByte_turns (L : Bool) (s : State) : (countByte L s).turns = s.turns := rfl
@[simp] theorem countByte_replies (L : Bool) (s : State) : (countByte L s).replies = s.replies := rfl
@[simp] theorem countByte_delivered (L : Bool) (s : State) : (countByte L s).delivered = s.delivered := rfl
@[simp] theorem countByte_freeIx (L : Bool) (s : State) : (countByte L s).freeIx = s.freeIx := rfl
@[simp] theorem countByte_instanceNo (L : Bool) (s : State) : (countByte L s).instanceNo = s.instanceNo := rfl

/-! `commit` keeps the registers of its argument and appends the beat, if any. -/

@[simp] theorem commit_cfg (r : State × Option Beat) : (commit r).cfg = r.1.cfg := rfl
@[simp] theorem commit_oq (r : State × Option Beat) : (commit r).oq = r.1.oq ++ r.2.toList := rfl
@[simp] theorem commit_phase (r : State × Option Beat) : (commit r).phase = r.1.phase := rfl
@[simp] theorem commit_idx (r : State × Option Beat) : (commit r).idx = r.1.idx := rfl
@[simp] theorem commit_hdrLo (r : State × Option Beat) : (commit r).hdrLo = r.1.hdrLo := rfl
@[simp] theorem commit_word (r : State × Option Beat) : (commit r).word = r.1.word := rfl
@[simp] theorem commit_fldLo (r : State × Option Beat) : (commit r).fldLo = r.1.fldLo := rfl
@[simp] theorem commit_dLat (r : State × Option Beat) : (commit r).dLat = r.1.dLat := rfl
@[simp] theorem commit_w (r : State × Option Beat) : (commit r).w = r.1.w := rfl
@[simp] theorem commit_acc (r : State × Option Beat) : (commit r).acc = r.1.acc := rfl
@[simp] theorem commit_m (r : State × Option Beat) : (commit r).m = r.1.m := rfl
@[simp] theorem commit_fIn (r : State × Option Beat) : (commit r).fIn = r.1.fIn := rfl
@[simp] theorem commit_cIn (r : State × Option Beat) : (commit r).cIn = r.1.cIn := rfl
@[simp] theorem commit_turns (r : State × Option Beat) : (commit r).turns = r.1.turns := rfl
@[simp] theorem commit_replies (r : State × Option Beat) : (commit r).replies = r.1.replies := rfl
@[simp] theorem commit_delivered (r : State × Option Beat) : (commit r).delivered = r.1.delivered := rfl
@[simp] theorem commit_freeIx (r : State × Option Beat) : (commit r).freeIx = r.1.freeIx := rfl
@[simp] theorem commit_instanceNo (r : State × Option Beat) : (commit r).instanceNo = r.1.instanceNo := rfl

/-! `errorEntry` changes the phase alone; the descriptor is its beat. -/

@[simp] theorem errorEntry_cfg (d : Desc) (L : Bool) (s : State) : (errorEntry d L s).1.cfg = s.cfg := rfl
@[simp] theorem errorEntry_oq (d : Desc) (L : Bool) (s : State) : (errorEntry d L s).1.oq = s.oq := rfl
@[simp] theorem errorEntry_phase (d : Desc) (L : Bool) (s : State) : (errorEntry d L s).1.phase = if L then .idle else .discard := rfl
@[simp] theorem errorEntry_idx (d : Desc) (L : Bool) (s : State) : (errorEntry d L s).1.idx = s.idx := rfl
@[simp] theorem errorEntry_hdrLo (d : Desc) (L : Bool) (s : State) : (errorEntry d L s).1.hdrLo = s.hdrLo := rfl
@[simp] theorem errorEntry_word (d : Desc) (L : Bool) (s : State) : (errorEntry d L s).1.word = s.word := rfl
@[simp] theorem errorEntry_fldLo (d : Desc) (L : Bool) (s : State) : (errorEntry d L s).1.fldLo = s.fldLo := rfl
@[simp] theorem errorEntry_dLat (d : Desc) (L : Bool) (s : State) : (errorEntry d L s).1.dLat = s.dLat := rfl
@[simp] theorem errorEntry_w (d : Desc) (L : Bool) (s : State) : (errorEntry d L s).1.w = s.w := rfl
@[simp] theorem errorEntry_acc (d : Desc) (L : Bool) (s : State) : (errorEntry d L s).1.acc = s.acc := rfl
@[simp] theorem errorEntry_m (d : Desc) (L : Bool) (s : State) : (errorEntry d L s).1.m = s.m := rfl
@[simp] theorem errorEntry_fIn (d : Desc) (L : Bool) (s : State) : (errorEntry d L s).1.fIn = s.fIn := rfl
@[simp] theorem errorEntry_cIn (d : Desc) (L : Bool) (s : State) : (errorEntry d L s).1.cIn = s.cIn := rfl
@[simp] theorem errorEntry_turns (d : Desc) (L : Bool) (s : State) : (errorEntry d L s).1.turns = s.turns := rfl
@[simp] theorem errorEntry_replies (d : Desc) (L : Bool) (s : State) : (errorEntry d L s).1.replies = s.replies := rfl
@[simp] theorem errorEntry_delivered (d : Desc) (L : Bool) (s : State) : (errorEntry d L s).1.delivered = s.delivered := rfl
@[simp] theorem errorEntry_freeIx (d : Desc) (L : Bool) (s : State) : (errorEntry d L s).1.freeIx = s.freeIx := rfl
@[simp] theorem errorEntry_instanceNo (d : Desc) (L : Bool) (s : State) : (errorEntry d L s).1.instanceNo = s.instanceNo := rfl
@[simp] theorem errorEntry_beat (d : Desc) (L : Bool) (s : State) : (errorEntry d L s).2 = some (descBeat d true) := rfl

/-! `latchFrame` changes the header registers, the latched depth, the phase and the byte index. -/

@[simp] theorem latchFrame_cfg (word : Half) (tail : Tail) (s : State) : (latchFrame word tail s).cfg = s.cfg := rfl
@[simp] theorem latchFrame_oq (word : Half) (tail : Tail) (s : State) : (latchFrame word tail s).oq = s.oq := rfl
@[simp] theorem latchFrame_phase (word : Half) (tail : Tail) (s : State) : (latchFrame word tail s).phase = .idle := rfl
@[simp] theorem latchFrame_idx (word : Half) (tail : Tail) (s : State) : (latchFrame word tail s).idx = 0 := rfl
@[simp] theorem latchFrame_hdrLo (word : Half) (tail : Tail) (s : State) : (latchFrame word tail s).hdrLo = loByte word := rfl
@[simp] theorem latchFrame_word (word : Half) (tail : Tail) (s : State) : (latchFrame word tail s).word = word := rfl
@[simp] theorem latchFrame_fldLo (word : Half) (tail : Tail) (s : State) : (latchFrame word tail s).fldLo = match tail with | .empty => s.fldLo | .part b => b | .fields f _ => loByte f := rfl
@[simp] theorem latchFrame_dLat (word : Half) (tail : Tail) (s : State) : (latchFrame word tail s).dLat = s.cfg := rfl
@[simp] theorem latchFrame_w (word : Half) (tail : Tail) (s : State) : (latchFrame word tail s).w = s.w := rfl
@[simp] theorem latchFrame_acc (word : Half) (tail : Tail) (s : State) : (latchFrame word tail s).acc = s.acc := rfl
@[simp] theorem latchFrame_m (word : Half) (tail : Tail) (s : State) : (latchFrame word tail s).m = s.m := rfl
@[simp] theorem latchFrame_fIn (word : Half) (tail : Tail) (s : State) : (latchFrame word tail s).fIn = s.fIn := rfl
@[simp] theorem latchFrame_cIn (word : Half) (tail : Tail) (s : State) : (latchFrame word tail s).cIn = s.cIn := rfl
@[simp] theorem latchFrame_turns (word : Half) (tail : Tail) (s : State) : (latchFrame word tail s).turns = s.turns := rfl
@[simp] theorem latchFrame_replies (word : Half) (tail : Tail) (s : State) : (latchFrame word tail s).replies = s.replies := rfl
@[simp] theorem latchFrame_delivered (word : Half) (tail : Tail) (s : State) : (latchFrame word tail s).delivered = s.delivered := rfl
@[simp] theorem latchFrame_freeIx (word : Half) (tail : Tail) (s : State) : (latchFrame word tail s).freeIx = s.freeIx := rfl
@[simp] theorem latchFrame_instanceNo (word : Half) (tail : Tail) (s : State) : (latchFrame word tail s).instanceNo = s.instanceNo := rfl

/-! `resetBlock` keeps the ports' side. -/

@[simp] theorem resetBlock_cfg (s : State) : (resetBlock s).cfg = 0 := rfl
@[simp] theorem resetBlock_oq (s : State) : (resetBlock s).oq = [] := rfl
@[simp] theorem resetBlock_phase (s : State) : (resetBlock s).phase = .idle := rfl
@[simp] theorem resetBlock_idx (s : State) : (resetBlock s).idx = 0 := rfl
@[simp] theorem resetBlock_hdrLo (s : State) : (resetBlock s).hdrLo = Config.hdrLoAfterReset s.instanceNo s.freeIx := rfl
@[simp] theorem resetBlock_word (s : State) : (resetBlock s).word = Config.wordAfterReset s.instanceNo s.freeIx := rfl
@[simp] theorem resetBlock_fldLo (s : State) : (resetBlock s).fldLo = Config.fldLoAfterReset s.instanceNo s.freeIx := rfl
@[simp] theorem resetBlock_dLat (s : State) : (resetBlock s).dLat = Config.dLatAfterReset s.instanceNo s.freeIx := rfl
@[simp] theorem resetBlock_w (s : State) : (resetBlock s).w = Config.wAfterReset s.instanceNo s.freeIx := rfl
@[simp] theorem resetBlock_acc (s : State) : (resetBlock s).acc = 0 := rfl
@[simp] theorem resetBlock_m (s : State) : (resetBlock s).m = 0 := rfl
@[simp] theorem resetBlock_fIn (s : State) : (resetBlock s).fIn = s.fIn := rfl
@[simp] theorem resetBlock_cIn (s : State) : (resetBlock s).cIn = s.cIn := rfl
@[simp] theorem resetBlock_turns (s : State) : (resetBlock s).turns = s.turns := rfl
@[simp] theorem resetBlock_replies (s : State) : (resetBlock s).replies = s.replies := rfl
@[simp] theorem resetBlock_delivered (s : State) : (resetBlock s).delivered = s.delivered := rfl
@[simp] theorem resetBlock_freeIx (s : State) : (resetBlock s).freeIx = s.freeIx + 1 := rfl
@[simp] theorem resetBlock_instanceNo (s : State) : (resetBlock s).instanceNo = s.instanceNo := rfl

/-! `withFetchWord` changes the turns, port F, the phase, the byte index and OQ. -/

@[simp] theorem State.withFetchWord_cfg (s : State) (nbits w : Nat) : (s.withFetchWord nbits w).cfg = s.cfg := rfl
@[simp] theorem State.withFetchWord_oq (s : State) (nbits w : Nat) : (s.withFetchWord nbits w).oq = [] := rfl
@[simp] theorem State.withFetchWord_phase (s : State) (nbits w : Nat) : (s.withFetchWord nbits w).phase = .idle := rfl
@[simp] theorem State.withFetchWord_idx (s : State) (nbits w : Nat) : (s.withFetchWord nbits w).idx = 0 := rfl
@[simp] theorem State.withFetchWord_hdrLo (s : State) (nbits w : Nat) : (s.withFetchWord nbits w).hdrLo = s.hdrLo := rfl
@[simp] theorem State.withFetchWord_word (s : State) (nbits w : Nat) : (s.withFetchWord nbits w).word = s.word := rfl
@[simp] theorem State.withFetchWord_fldLo (s : State) (nbits w : Nat) : (s.withFetchWord nbits w).fldLo = s.fldLo := rfl
@[simp] theorem State.withFetchWord_dLat (s : State) (nbits w : Nat) : (s.withFetchWord nbits w).dLat = s.dLat := rfl
@[simp] theorem State.withFetchWord_w (s : State) (nbits w : Nat) : (s.withFetchWord nbits w).w = s.w := rfl
@[simp] theorem State.withFetchWord_acc (s : State) (nbits w : Nat) : (s.withFetchWord nbits w).acc = s.acc := rfl
@[simp] theorem State.withFetchWord_m (s : State) (nbits w : Nat) : (s.withFetchWord nbits w).m = s.m := rfl
@[simp] theorem State.withFetchWord_fIn (s : State) (nbits w : Nat) : (s.withFetchWord nbits w).fIn = frameBeats (tableFrame nbits w) ++ s.fIn := rfl
@[simp] theorem State.withFetchWord_cIn (s : State) (nbits w : Nat) : (s.withFetchWord nbits w).cIn = s.cIn := rfl
@[simp] theorem State.withFetchWord_turns (s : State) (nbits w : Nat) : (s.withFetchWord nbits w).turns = .frame :: s.turns := rfl
@[simp] theorem State.withFetchWord_replies (s : State) (nbits w : Nat) : (s.withFetchWord nbits w).replies = s.replies := rfl
@[simp] theorem State.withFetchWord_delivered (s : State) (nbits w : Nat) : (s.withFetchWord nbits w).delivered = s.delivered := rfl
@[simp] theorem State.withFetchWord_freeIx (s : State) (nbits w : Nat) : (s.withFetchWord nbits w).freeIx = s.freeIx := rfl
@[simp] theorem State.withFetchWord_instanceNo (s : State) (nbits w : Nat) : (s.withFetchWord nbits w).instanceNo = s.instanceNo := rfl

end Sys2Proof.Machine
end

