-- ==== Sys2Proof/Laws/Ops.lean ====
section
/-! SUPPORT. For each shared operation, what it can do, said once. -/

namespace Sys2Proof.Machine

/-! ### Configuration registers -/

theorem readReg_cfg (s : State) : readReg 0 s = s.cfg := rfl

theorem readReg_reserved (off : BitVec 8) (s : State) (h : off ≠ 0) : readReg off s = 0 := if_neg h

theorem writeReg_cfg (v : Word) (s : State) : writeReg 0 v s = { s with cfg := v } := rfl

theorem writeReg_reserved (off : BitVec 8) (v : Word) (s : State) (h : off ≠ 0) : writeReg off v s = s := if_neg h

/-! ### Output beats -/

@[simp] theorem markLast_nil : markLast [] = [] := rfl

/-- `markLast` on a run that ends in `b`: `o_last` on `b` alone. -/
theorem markLast_concat (bs : List Beat) (b : Beat) :
    markLast (bs ++ [b]) = bs.map (fun x => { x with last := false }) ++ [{ b with last := true }] := by
  induction bs with
  | nil => rfl
  | cons x xs ih =>
    cases xs with
    | nil => rfl
    | cons y ys => simpa [markLast] using ih

@[simp] theorem markLast_length (bs : List Beat) : (markLast bs).length = bs.length := by
  induction bs with
  | nil => rfl
  | cons x xs ih =>
    cases xs with
    | nil => rfl
    | cons y ys => simpa [markLast] using ih

@[simp] theorem markLast_single (b : Beat) : markLast [b] = [{ b with last := true }] := rfl

/-- A beat before the final one keeps `o_last` 0. -/
theorem markLast_cons (b : Beat) (bs : List Beat) (h : bs ≠ []) :
    markLast (b :: bs) = { b with last := false } :: markLast bs := by
  cases bs with
  | nil => exact absurd rfl h
  | cons x xs => rfl

/-! ### Reading a beat -/

@[simp] theorem BeatKind.ofBits_bits (k : BeatKind) : BeatKind.ofBits k.bits = some k := by cases k <;> rfl

/-- A reader that takes a beat from the signals of port O takes it as it stands there. -/
theorem Beat.ofSignals_eq_some {kind : BitVec 2} {data : Dword} {nbytes : BitVec 3} {last : Bool} {b : Beat}
    (h : Beat.ofSignals kind data nbytes last = some b) :
    BeatKind.ofBits kind = some b.kind ∧ b.data = data ∧ b.nbytes = nbytes ∧ b.last = last := by
  unfold Beat.ofSignals at h
  split at h
  · cases h
  · obtain ⟨_, -, rfl⟩ := Option.map_eq_some_iff.mp h
    exact ⟨‹_›, rfl, rfl, rfl⟩
  · cases h; exact ⟨‹_›, rfl, rfl, rfl⟩
  · cases h; exact ⟨‹_›, rfl, rfl, rfl⟩

/-! ### Room and take -/

/-- `roomOnO` changes nothing but the number of the next free value. -/
theorem roomOnO_state (s : State) : ∃ n, (roomOnO s).2 = { s with freeIx := n } := by
  unfold roomOnO
  split
  · exact ⟨s.freeIx, rfl⟩
  · exact ⟨s.freeIx + 1, rfl⟩

/-- While port O holds no beat there is room, and no free value is asked for. -/
theorem roomOnO_of_empty (s : State) (h : s.oq = []) : roomOnO s = (true, s) := by simp [roomOnO, h]

theorem takeBeat_nil (s : State) (h : s.oq = []) : takeBeat s = s := by simp [takeBeat, h]

theorem takeBeat_cons (s : State) (b : Beat) (rest : List Beat) (h : s.oq = b :: rest) :
    takeBeat s = { s with oq := rest, delivered := s.delivered ++ [b] } := by simp [takeBeat, h]

/-! ### Chunks -/

@[simp] theorem chunks_nil (w : Nat) : chunks w [] = [] := rfl

/-- More fuel than bytes makes no difference to the cut. -/
theorem chunksUpTo_fuel (w : Nat) (hw : 0 < w) :
    ∀ (n k : Nat) (B : List Byte), B.length ≤ n → B.length ≤ k → chunksUpTo n w B = chunksUpTo k w B := by
  intro n
  induction n with
  | zero =>
    intro k B hn _
    have hB : B = [] := List.length_eq_zero_iff.mp (by omega)
    subst hB
    cases k <;> rfl
  | succ n ih =>
    intro k B hn hk
    cases B with
    | nil => cases k <;> rfl
    | cons b bs =>
      cases k with
      | zero => simp at hk
      | succ k =>
        have hlen : ((b :: bs).drop w).length ≤ bs.length := by
          simp only [List.length_drop, List.length_cons]; omega
        simp only [List.length_cons] at hn hk
        simp only [chunksUpTo]
        rw [ih k _ (by omega) (by omega)]

/-- R133: the first chunk, then the chunks of the rest. -/
theorem chunks_step (w : Nat) (hw : 0 < w) (B : List Byte) (h : B ≠ []) :
    chunks w B = B.take w :: chunks w (B.drop w) := by
  cases B with
  | nil => exact absurd rfl h
  | cons b bs =>
    have hlen : ((b :: bs).drop w).length ≤ bs.length := by
      simp only [List.length_drop, List.length_cons]; omega
    simp only [chunks, List.length_cons, chunksUpTo]
    rw [chunksUpTo_fuel w hw _ ((b :: bs).drop w).length _ hlen (Nat.le_refl _)]

/-! ### The byte-serial machine -/

theorem accept_eq (P : Params) (b : Byte) (L : Bool) (s : State) :
    accept P b L s = commit (serialNext P b L (countByte L s)) := rfl

@[simp] theorem acceptBeats_nil (P : Params) (s : State) : acceptBeats P [] s = s := rfl

@[simp] theorem acceptBeats_cons (P : Params) (f : FBeat) (fs : List FBeat) (s : State) :
    acceptBeats P (f :: fs) s = acceptBeats P fs (accept P f.data f.last s) := rfl

/-- Beats accepted in two runs are the beats accepted in one. -/
theorem acceptBeats_append (P : Params) (fs gs : List FBeat) (s : State) :
    acceptBeats P (fs ++ gs) s = acceptBeats P gs (acceptBeats P fs s) := by
  induction fs generalizing s with
  | nil => rfl
  | cons f fs ih => simpa using ih _

/-- A frame's beats are its open bytes and one final byte. -/
theorem frameBeats_concat (bs : List Byte) (b : Byte) : frameBeats (bs ++ [b]) = openBeats bs ++ [⟨b, true⟩] := by
  induction bs with
  | nil => rfl
  | cons x xs ih =>
    cases xs with
    | nil => rfl
    | cons y ys => simpa [frameBeats, openBeats] using ih

theorem frameBeats_cons (b : Byte) (bs : List Byte) (h : bs ≠ []) :
    frameBeats (b :: bs) = ⟨b, false⟩ :: frameBeats bs := by
  cases bs with
  | nil => exact absurd rfl h
  | cons x xs => rfl

/-! ### Fetching -/

/-- What is cut off port F is a frame's beats, at the head of the port. -/
theorem splitFrame_eq_some {fs : List FBeat} {F : List Byte} {rest : List FBeat} (h : splitFrame fs = some (F, rest)) :
    F ≠ [] ∧ fs = frameBeats F ++ rest := by
  induction fs generalizing F rest with
  | nil => simp [splitFrame] at h
  | cons f fs ih =>
    obtain ⟨d, l⟩ := f
    cases l with
    | true =>
      simp only [splitFrame, if_true, Option.some.injEq, Prod.mk.injEq] at h
      obtain ⟨rfl, rfl⟩ := h
      exact ⟨by simp, rfl⟩
    | false =>
      cases hs : splitFrame fs with
      | none => simp [splitFrame, hs] at h
      | some p =>
        obtain ⟨G, r⟩ := p
        simp only [splitFrame, hs, Bool.false_eq_true, if_false, Option.some.injEq, Prod.mk.injEq] at h
        obtain ⟨rfl, rfl⟩ := h
        obtain ⟨hG, he⟩ := ih hs
        exact ⟨by simp, by simp [frameBeats_cons _ _ hG, he]⟩

/-- A frame turn ends in one of three ways: nothing to do, a stall, or the frame's bytes taken from the port. -/
theorem fetchFrame_cases (s : State) :
    (splitFrame s.fIn = none ∧ fetchFrame s = .done s) ∨
    (∃ n, fetchFrame s = .done { s with freeIx := n }) ∨
    (∃ F rest n, F ≠ [] ∧ s.fIn = frameBeats F ++ rest ∧
      fetchFrame s = fetchBytes F { s with freeIx := n, fIn := rest }) := by
  unfold fetchFrame
  split
  · exact .inl ⟨by assumption, rfl⟩
  · rename_i F rest hs
    obtain ⟨n, hn⟩ := roomOnO_state s
    obtain ⟨hF, he⟩ := splitFrame_eq_some hs
    split
    · rename_i s' hr
      refine .inr (.inl ⟨n, ?_⟩)
      rw [← hn, hr]
    · rename_i s' hr
      refine .inr (.inr ⟨F, rest, n, hF, he, ?_⟩)
      rw [hr] at hn
      simp only at hn
      rw [hn]

/-- A byte turn ends in one of three ways: nothing offered, a stall, or the byte accepted. -/
theorem acceptByte_cases (s : State) :
    (s.fIn = [] ∧ acceptByte s = s) ∨
    (∃ n, acceptByte s = { s with freeIx := n }) ∨
    (∃ f rest n, s.fIn = f :: rest ∧
      acceptByte s = accept Config.params f.data f.last { s with freeIx := n, fIn := rest }) := by
  unfold acceptByte
  split
  · exact .inl ⟨by assumption, rfl⟩
  · rename_i f rest hs
    simp only
    split
    · exact .inr (.inr ⟨f, rest, s.freeIx, hs, rfl⟩)
    · obtain ⟨n, hn⟩ := roomOnO_state s
      split
      · rename_i s' hr
        refine .inr (.inl ⟨n, ?_⟩)
        rw [← hn, hr]
      · rename_i s' hr
        refine .inr (.inr ⟨f, rest, n, hs, ?_⟩)
        rw [hr] at hn
        simp only at hn
        rw [hn]

end Sys2Proof.Machine
end

