-- ==== Sys2Proof/Laws/Frames.lean ====
section
/-! SUPPORT. What the frame operations do: one lemma for each outcome of a control frame, of a data frame and of an
extraction, each with the whole next state; and the transaction-level `Out` on a frame's fields. -/

namespace Sys2Proof.Machine

/-! ### The decode record's status -/

@[simp] theorem headerRecord_status (word : Half) : (headerRecord word).status = .short := rfl

@[simp] theorem dataRecord_status (P : Params) (word seq : Half) (body : List Byte) :
    (dataRecord P word seq body).status = .ok := rfl

theorem controlRecord_known (P : Params) (word code : Half) (body : List Byte) (h : P.knows code = true) :
    controlRecord P word code body = { headerRecord word with status := .ok, code := code, body := body } := if_pos h

theorem controlRecord_unknown (P : Params) (word code : Half) (body : List Byte) (h : P.knows code = false) :
    controlRecord P word code body = { headerRecord word with status := .badCode, code := code } := by
  simp [controlRecord, h]

/-! ### Frame operations -/

/-- `controlFrame` inside a frame: the bytes go to the frame in flight. -/
theorem controlFrame_inFlight (P : Params) (t : BitVec 3) (len : BitVec 13) (tail : Tail) (s : State)
    (h : s.phase ≠ .idle) :
    controlFrame P t len tail s = acceptBeats P (frameBeats (frameBytes t len tail)) s := if_neg h

/-- `dataFrame` inside a frame: the bytes go to the frame in flight. -/
theorem dataFrame_inFlight (P : Params) (sub : BitVec 2) (len : BitVec 13) (tail : Tail) (s : State)
    (h : s.phase ≠ .idle) :
    dataFrame P sub len tail s = acceptBeats P (frameBeats (frameBytes (dataType sub) len tail)) s := if_neg h

/-- `controlFrame` at a frame boundary. -/
theorem controlFrame_idle (P : Params) (t : BitVec 3) (len : BitVec 13) (tail : Tail) (s : State) (h : s.phase = .idle) :
    controlFrame P t len tail s =
      match tail with
      | .fields code body => controlItem P (headerWord t len) code body (latchFrame (headerWord t len) tail s)
      | .empty => shortFrame (headerWord t len) (latchFrame (headerWord t len) tail s)
      | .part _ => shortFrame (headerWord t len) (latchFrame (headerWord t len) tail s) := by
  cases tail <;> exact if_pos h

/-- `dataFrame` at a frame boundary. -/
theorem dataFrame_idle (P : Params) (sub : BitVec 2) (len : BitVec 13) (tail : Tail) (s : State) (h : s.phase = .idle) :
    dataFrame P sub len tail s =
      match tail with
      | .fields seq body =>
        extractItem P s.cfg ⟨sub, len, seq, body⟩ (latchFrame (headerWord (dataType sub) len) tail s)
      | .empty =>
        shortFrame (headerWord (dataType sub) len) (latchFrame (headerWord (dataType sub) len) tail s)
      | .part _ =>
        shortFrame (headerWord (dataType sub) len) (latchFrame (headerWord (dataType sub) len) tail s) := by
  cases tail <;> exact if_pos h

/-- Extraction under a depth in range. -/
theorem extractItem_inRange (P : Params) (d : Word) (item : DataItem) (s : State) (h : depthInRange d = true) :
    extractItem P d item s = sampleItem P (chunkWidth d) item s := if_pos h

/-- Extraction under a depth out of range. -/
theorem extractItem_outOfRange (P : Params) (d : Word) (item : DataItem) (s : State) (h : depthInRange d = false) :
    extractItem P d item s = depthErrorItem P item s := by simp [extractItem, h]

/-! ### Transaction level -/

/-- `Out` on a frame too short for its fixed fields but with a header. -/
theorem frameOut_short (P : Params) (d : Word) (b0 b1 : Byte) (rest : List Byte) (h : rest.length < 2) :
    frameOut P d (b0 :: b1 :: rest) = [descBeat ((headerRecord (le16 b0 b1)).desc .none 0) true] := by
  match rest, h with
  | [], _ => rfl
  | [_], _ => rfl
  | _ :: _ :: _, h => simp at h

/-- Every accepted byte appends at most one beat to OQ. -/
theorem accept_oq (P : Params) (b : Byte) (L : Bool) (s : State) :
    ∃ ob : Option Beat, (accept P b L s).oq = s.oq ++ ob.toList := by
  refine ⟨(serialNext P b L (countByte L s)).2, ?_⟩
  have h : ∀ s' : State, (serialNext P b L s').1.oq = s'.oq := by
    intro s'
    unfold serialNext
    split <;>
      simp only [serialIdle, serialHdr1, serialFld0, serialFld1, serialData, serialControl, serialBody, serialSamples,
        serialDiscard]
    all_goals (repeat' split) <;> rfl
  rw [accept_eq, commit_oq, h, countByte_oq]

/-! ### Running a transfer -/

theorem runTransfer_ok (x : Transfer) (s : State) (i : Instr) (h : decode x = .ok i) : runTransfer x s = exec i s := by
  simp [runTransfer, h]

theorem runTransfer_error (x : Transfer) (s : State) (e : DecodeError) (h : decode x = .error e) :
    runTransfer x s = .next (acceptBeats Config.params (transferBeats x) s) := by
  simp [runTransfer, h]

end Sys2Proof.Machine
end

