-- ==== Sys2Proof/Laws/PerInstr.lean ====
section
/-! SUPPORT. A statement made for each operation: what the decoder answers is well formed. -/

namespace Sys2Proof.Laws.DecodedWellFormed

/-- No transfer decodes to an ill-formed term of this operation. -/
def Statement (i : Instr) : Prop := ∀ x, decode x = .ok i → i.wellFormed = true

theorem header_wellFormed (word : Half) (tail : Tail) : (decodeHeader word tail).wellFormed = true := by
  unfold decodeHeader
  simp only
  split <;> rfl

theorem depth_wellFormed (depth : Word) (item : DataItem) : (decodeDepth depth item).wellFormed = true := by
  unfold decodeDepth
  simp only
  split
  · simp [Instr.wellFormed]; omega
  · split
    · simp [Instr.wellFormed]; omega
    · split
      · simp [Instr.wellFormed]; omega
      · split
        · simp [Instr.wellFormed]; omega
        · simp [Instr.wellFormed]; omega

/-- Whatever the decoder answers is well formed. -/
theorem of_decode (x : Transfer) (i : Instr) (h : decode x = .ok i) : i.wellFormed = true := by
  unfold decode at h
  split at h
  · cases h
  · cases h
  · cases h; exact header_wellFormed _ _
  · cases h; rfl
  · cases h; rfl
  · split at h
    · cases h; exact depth_wellFormed _ _
    · cases h
  · cases h; rfl

theorem decSetCi (len : BitVec 13) (tail : Tail) : Statement (.decSetCi len tail) := fun x h => of_decode x _ h
theorem decGetCi (len : BitVec 13) (tail : Tail) : Statement (.decGetCi len tail) := fun x h => of_decode x _ h
theorem decCiRange (len : BitVec 13) (tail : Tail) : Statement (.decCiRange len tail) := fun x h => of_decode x _ h
theorem decAck (len : BitVec 13) (tail : Tail) : Statement (.decAck len tail) := fun x h => of_decode x _ h
theorem decData0 (len : BitVec 13) (tail : Tail) : Statement (.decData0 len tail) := fun x h => of_decode x _ h
theorem decData1 (len : BitVec 13) (tail : Tail) : Statement (.decData1 len tail) := fun x h => of_decode x _ h
theorem decData2 (len : BitVec 13) (tail : Tail) : Statement (.decData2 len tail) := fun x h => of_decode x _ h
theorem decData3 (len : BitVec 13) (tail : Tail) : Statement (.decData3 len tail) := fun x h => of_decode x _ h
theorem extW1 (depth : Word) (item : DataItem) : Statement (.extW1 depth item) := fun x h => of_decode x _ h
theorem extW2 (depth : Word) (item : DataItem) : Statement (.extW2 depth item) := fun x h => of_decode x _ h
theorem extW3 (depth : Word) (item : DataItem) : Statement (.extW3 depth item) := fun x h => of_decode x _ h
theorem extW4 (depth : Word) (item : DataItem) : Statement (.extW4 depth item) := fun x h => of_decode x _ h
theorem extDepthErr (depth : Word) (item : DataItem) : Statement (.extDepthErr depth item) := fun x h => of_decode x _ h
theorem cfgWr (off : BitVec 8) (v : Word) : Statement (.cfgWr off v) := fun x h => of_decode x _ h
theorem cfgRd (off : BitVec 8) : Statement (.cfgRd off) := fun x h => of_decode x _ h
theorem reset : Statement (.reset) := fun x h => of_decode x _ h

end Sys2Proof.Laws.DecodedWellFormed
end

