-- ==== Sys2Proof/Tests/Slice0.lean ====
section
/-! SUPPORT. Tests: ill-formed terms are refused, words written out from the spec's encodings decode to their operations, the
spec's vectors (spec/95_test_vectors.md and the worked examples of spec/41 and spec/42) come out, and the hypotheses of every
statement are met by a concrete state. -/

namespace Sys2Proof.Tests

open Sys2Proof Sys2Proof.Machine

/-- REF_CFG of spec/92_eei_decisions.md D5: the parameters of the spec's vectors, not the hardware's. -/
def refCfg : Params := ⟨[0x0000, 0x0018, 0x0020, 0x0044], 0x0000, false⟩

/-- REF_CFG with sign extension. -/
def refSigned : Params := { refCfg with sampleSigned := true }

/-- The block after reset with a depth configured. -/
def atDepth (d : Word) : State := { State.reset with cfg := d }

/-- A data item with sequence number 0. -/
def item0 (body : List Byte) : DataItem := ⟨0, 0, 0, body⟩

/-! ### WellFormed refuses an ill-formed term of each check -/

theorem test_extW1_depth9_illFormed : (Instr.extW1 9 (item0 [])).wellFormed = false := by decide
theorem test_extW2_depth8_illFormed : (Instr.extW2 8 (item0 [])).wellFormed = false := by decide
theorem test_extW3_depth25_illFormed : (Instr.extW3 25 (item0 [])).wellFormed = false := by decide
theorem test_extW4_depth33_illFormed : (Instr.extW4 33 (item0 [])).wellFormed = false := by decide
theorem test_extDepthErr_depth32_illFormed : (Instr.extDepthErr 32 (item0 [])).wellFormed = false := by decide

/-! ### Decoding, on words written out bit by bit (R61, R62, R73) -/

theorem test_decode_decSetCi : decode (.frame [0b00000100, 0b00000000, 0b00011000, 0b00000000]) =
    .ok (.decSetCi 4 (.fields 0x0018 [])) := by rfl
theorem test_decode_decGetCi : decode (.frame [0b00000110, 0b00100000, 0b00100000, 0b00000000, 0xAA, 0xBB]) =
    .ok (.decGetCi 6 (.fields 0x0020 [0xAA, 0xBB])) := by rfl
theorem test_decode_decCiRange : decode (.frame [0b11111111, 0b01011111, 0b01000100]) =
    .ok (.decCiRange 8191 (.part 0x44)) := by rfl
theorem test_decode_decAck : decode (.frame [0b01010000, 0b01111101, 0b00001111, 0b00100111]) =
    .ok (.decAck 7504 (.fields 9999 [])) := by rfl
theorem test_decode_decData0 : decode (.frame [0b00001000, 0b10000000, 0b00000101, 0b00000000, 1, 2, 3, 4]) =
    .ok (.decData0 8 (.fields 5 [1, 2, 3, 4])) := by rfl
theorem test_decode_decData1 : decode (.frame [0b00000101, 0b10100000, 0b11111111, 0b11111111, 0x7F]) =
    .ok (.decData1 5 (.fields 0xFFFF [0x7F])) := by rfl
theorem test_decode_decData2 : decode (.frame [0b11001100, 0b11011101]) = .ok (.decData2 7628 .empty) := by rfl
theorem test_decode_decData3 : decode (.frame [0b11111111, 0b11111111, 0b00110100, 0b00010010]) =
    .ok (.decData3 8191 (.fields 0x1234 [])) := by rfl
theorem test_decode_extW1 : decode (.extract 8 0b1000000000000111 0x0000 [10, 20, 30]) =
    .ok (.extW1 8 ⟨0, 7, 0, [10, 20, 30]⟩) := by rfl
theorem test_decode_extW2 : decode (.extract 9 0b1010000000000110 0x0001 [1, 2]) =
    .ok (.extW2 9 ⟨1, 6, 1, [1, 2]⟩) := by rfl
theorem test_decode_extW3 : decode (.extract 24 0b1100000000000100 0x0100 []) =
    .ok (.extW3 24 ⟨2, 4, 0x0100, []⟩) := by rfl
theorem test_decode_extW4 : decode (.extract 25 0b1110000000001010 0xBEEF [1]) =
    .ok (.extW4 25 ⟨3, 10, 0xBEEF, [1]⟩) := by rfl
theorem test_decode_extDepthErr : decode (.extract 0 0b1110000000000111 0x1234 [1, 2, 3]) =
    .ok (.extDepthErr 0 ⟨3, 7, 0x1234, [1, 2, 3]⟩) := by rfl
theorem test_decode_cfgWr : decode (.config true 0x00 24) = .ok (.cfgWr 0 24) := by rfl
theorem test_decode_cfgRd : decode (.config false 0x04 0) = .ok (.cfgRd 4) := by rfl
theorem test_decode_reset : decode .rst = .ok .reset := by rfl
theorem test_decode_rejects_byName : decode (.frame []) = .error .emptyFrame ∧ decode (.frame [0x50]) = .error .noHeader ∧
    decode (.extract 8 0x0004 0 []) = .error .notDataItem := ⟨rfl, rfl, rfl⟩

/-! ### Meanings, on the spec's vectors -/

/-- 41, R105 example. -/
theorem test_decSetCi_known : (controlFrame refCfg 0 4 (.fields 0x0018 []) State.reset).oq =
    [⟨.desc, 0x0000001800000404, 0, true⟩] := by decide
/-- 95, 1.5: code 9999 with two parameter bytes. -/
theorem test_decSetCi_badCode : (controlFrame refCfg 0 6 (.fields 9999 [1, 2]) State.reset).oq =
    [⟨.desc, 0x0000270F00000606, 0, true⟩] := by decide
/-- 41, R106 example. -/
theorem test_decGetCi_body : (controlFrame refCfg 1 6 (.fields 0x0020 [0xAA, 0xBB]) State.reset).oq =
    [⟨.desc, 0x0000002000000614, 0, false⟩, ⟨.body, 0xAA, 1, false⟩, ⟨.body, 0xBB, 1, true⟩] := by decide
/-- 95, 2.2 row 16: a 3-byte frame. -/
theorem test_decGetCi_short : (controlFrame refCfg 1 5 (.part 0x18) State.reset).oq =
    [⟨.desc, 0x0000000000000515, 0, true⟩] := by decide
/-- 41, R107 example. -/
theorem test_decCiRange_body : (controlFrame refCfg 2 5 (.fields 0x0044 [1]) State.reset).oq =
    [⟨.desc, 0x0000004400000524, 0, false⟩, ⟨.body, 1, 1, true⟩] := by decide
/-- 41, R108 example. -/
theorem test_decAck_9999 : (controlFrame refCfg 3 4 (.fields 0x270F []) State.reset).oq =
    [⟨.desc, 0x0000270F00000436, 0, true⟩] := by decide
/-- 41, R109 example, depth 16. -/
theorem test_decData0_depth16 : (dataFrame refCfg 0 8 (.fields 5 [1, 2, 3, 4]) (atDepth 16)).oq =
    [⟨.desc, 0x00050000022008CC, 0, false⟩, ⟨.sample, 0x0201, 2, false⟩, ⟨.sample, 0x0403, 2, true⟩] := by decide
/-- 41, R110 example, depth 8. -/
theorem test_decData1_depth8 : (dataFrame refCfg 1 5 (.fields 0xFFFF [0x7F]) (atDepth 8)).oq =
    [⟨.desc, 0xFFFF0000012005DC, 0, false⟩, ⟨.sample, 0x7F, 1, true⟩] := by decide
/-- 41, R111 example, depth 24, an empty body. -/
theorem test_decData2_emptyBody : (dataFrame refCfg 2 4 (.fields 0x0100 []) (atDepth 24)).oq =
    [⟨.desc, 0x01000000032004EC, 0, true⟩] := by decide
/-- 41, R112 example, depth 0. -/
theorem test_decData3_depthErr : (dataFrame refCfg 3 7 (.fields 0x1234 [1, 2, 3]) State.reset).oq =
    [⟨.desc, 0x12340000004007FC, 0, true⟩] := by decide
/-- 41, R112: the 2-byte frame FF FF. -/
theorem test_decData3_short : (dataFrame refCfg 3 8191 .empty State.reset).oq =
    [⟨.desc, 0x00000000001FFF7D, 0, true⟩] := by decide
/-- 42, R136 example, after its descriptor. -/
theorem test_extW1 : (sampleItem refCfg 1 (item0 [10, 20, 30]) State.reset).oq.tail =
    [⟨.sample, 10, 1, false⟩, ⟨.sample, 20, 1, false⟩, ⟨.sample, 30, 1, true⟩] := by decide
/-- 95, 2.3 row 5, signed and unsigned. -/
theorem test_extW2_short_lastChunk :
    samplesOf false 2 [0x34, 0x12, 0xFF] = [(0x00001234, 2), (0x000000FF, 1)] ∧
    samplesOf true 2 [0x34, 0x12, 0xFF] = [(0x00001234, 2), (0xFFFFFFFF, 1)] := by decide
/-- 95, 2.3 row 13, and R138 example, signed and unsigned. -/
theorem test_extW3 :
    samplesOf true 3 [1, 2, 0x83] = [(0xFF830201, 3)] ∧
    samplesOf false 3 [1, 2, 3, 4, 5, 6, 7] = [(0x00030201, 3), (0x00060504, 3), (7, 1)] := by decide
/-- 95, 2.3 row 15, signed and unsigned. -/
theorem test_extW4 :
    samplesOf false 4 [0xFF, 0xFF, 0xFF, 0xFF, 0x80] = [(0xFFFFFFFF, 4), (0x00000080, 1)] ∧
    samplesOf true 4 [0xFF, 0xFF, 0xFF, 0xFF, 0x80] = [(0xFFFFFFFF, 4), (0xFFFFFF80, 1)] := by decide
/-- 95, 2.3 rows 19 to 22. -/
theorem test_extDepthErr : extract true 0 [1, 2] = (.depthErr, 0, []) ∧ extract true 33 [1, 2] = (.depthErr, 0, []) ∧
    extract true 64 [1, 2] = (.depthErr, 0, []) ∧ extract true 0xFFFFFFFF [1, 2] = (.depthErr, 0, []) :=
  ⟨rfl, rfl, rfl, rfl⟩
/-- 95, 2.4 rows 3 and 5. -/
theorem test_cfgWr : (writeReg 0 0x108 State.reset).cfg = 0x108 ∧ writeReg 4 8 State.reset = State.reset := by decide
/-- 95, 2.4 rows 2 and 6. -/
theorem test_cfgRd : readReg 0 (atDepth 16) = 16 ∧ readReg 4 (atDepth 16) = 0 ∧ readReg 0xFF (atDepth 16) = 0 := by decide
/-- 95, 2.7 rows 2 and 3: reset in a data frame. -/
theorem test_reset_inFrame :
    let s := resetBlock { atDepth 8 with phase := .samples, acc := 5, m := 1, oq := [⟨.body, 1, 1, false⟩] }
    s.cfg = 0 ∧ s.oq = [] ∧ s.phase = .idle ∧ s.acc = 0 ∧ s.m = 0 := by decide

/-! ### The byte-serial machine, the encoder, and one step -/

/-- 95, 2.1: a one-byte frame. -/
theorem test_serial_oneByte : (accept refCfg 0x50 true State.reset).oq = [⟨.desc, 1, 0, true⟩] := by decide
/-- R28, R160: the first byte latches the depth. -/
theorem test_serial_latches : (accept refCfg 0x08 false (atDepth 16)).dLat = 16 := by decide
/-- R160: the second byte of a 2-byte sample, with 0x01 in `acc`. -/
theorem test_serial_sample :
    (accept refCfg 0x80 false { atDepth 16 with phase := .samples, w := 2, m := 1, acc := 1 }).oq =
      [⟨.sample, 0x8001, 2, false⟩] := by decide
/-- 95, 2.5. -/
theorem test_refEncoder : encodeControl 0 0x0020 [0x10, 0x27, 0, 0, 0] = .ok [0x09, 0, 0x20, 0, 0x10, 0x27, 0, 0, 0] ∧
    encodeHeader 3 7504 = [0x50, 0x7D] ∧ encodeHeader 7 8191 = [0xFF, 0xFF] := ⟨by rfl, by rfl, by rfl⟩
/-- 95, 1.2, decoded at the transaction level: a data frame at depth 24. -/
theorem test_frameOut_data : frameOut refCfg 24 [0x0A, 0xE0, 0xEF, 0xBE, 1, 2, 3, 4, 5, 6] =
    [⟨.desc, 0xBEEF000003200AFC, 0, false⟩, ⟨.sample, 0x030201, 3, false⟩, ⟨.sample, 0x060504, 3, true⟩] := by decide
/-- 95, P1, the signed variant. -/
theorem test_frameOut_signed : frameOut refSigned 16 [0x07, 0x80, 1, 0, 1, 0x80, 0xFF] =
    [⟨.desc, 0x00010000022007CC, 0, false⟩, ⟨.sample, 0xFFFF8001, 2, false⟩, ⟨.sample, 0xFFFFFFFF, 1, true⟩] := by decide
/-- R66, R71: the unpacked descriptor of R109's example, and a value with reserved bit 23 set. -/
theorem test_unpack : Desc.unpack 0x00050000022008CC = some ⟨.ok, true, true, 4, true, 8, .ok, 2, 0, 5⟩ ∧
    Desc.unpack 0x0000000000800000 = none := by decide
/-- R68, R71: `o_kind` 1 is BODY, 3 is reserved, and a DESC beat with `status` 3 is refused. -/
theorem test_beat_ofSignals : Beat.ofSignals 1 0xAA 1 true = some ⟨.body, 0xAA, 1, true⟩ ∧ Beat.ofSignals 3 0 0 false = none ∧
    Beat.ofSignals 0 3 0 true = none := by decide
/-- Each instance of a system asks free values of its own (log 20). -/
theorem test_resetSystem_numbers : (resetSystem 3).map (·.instanceNo) = [0, 1, 2] ∧ State.resetAs 0 = State.reset := by decide
/-- A table word placed after reset is run by the next step, which leaves the port empty. -/
theorem test_step_runs_tableWord : ∃ t, step (State.reset.withFetchWord 16 0xE007) = .next t ∧ t.fIn = [] ∧ t.turns = [] ∧
    t.word = 0xE007 ∧ t.phase = .idle := ⟨_, rfl, rfl, rfl, by decide, rfl⟩
/-- R31: no turn, no change. -/
theorem test_step_idle : step State.reset = .next State.reset := rfl

/-! ### Witnesses: the hypotheses of each statement are met together -/

theorem test_witness_ReservedOffsetsReadZeroIgnoreWrites : (0x01 : BitVec 8) ≠ 0 ∧ (0xFF : BitVec 8) ≠ 0 := by decide

theorem test_witness_FrameAfterResetIsNewAtDepthZero :
    ([0xCC, 0xDD] : List Byte) ≠ [] ∧ exec .reset (atDepth 8) = .next (resetBlock (atDepth 8)) := ⟨by decide, rfl⟩

theorem test_witness_ConfigTurnNeverWaits :
    let s : State := { atDepth 8 with phase := .body, oq := [⟨.body, 1, 1, false⟩], turns := [.config], cIn := [⟨true, 0, 9⟩] }
    s.turns = .config :: [] ∧ s.cIn = ⟨true, 0, 9⟩ :: [] := ⟨rfl, rfl⟩

theorem test_witness_CfgChangesOnlyByWriteOrReset :
    (∃ t, step { atDepth 8 with turns := [.rst] } = .next t ∧ t.cfg ≠ 8) ∧
    (∃ t, step { atDepth 8 with turns := [.config], cIn := [⟨true, 0, 9⟩] } = .next t ∧ t.cfg ≠ 8) ∧
    (∃ t, step { atDepth 8 with turns := [.byteWithConfig], cIn := [⟨true, 0, 9⟩] } = .next t ∧ t.cfg ≠ 8) :=
  ⟨⟨_, rfl, by decide⟩, ⟨_, rfl, by decide⟩, ⟨_, rfl, by decide⟩⟩

theorem test_witness_DecodeOfEncodeIsIdentity :
    (Instr.extW1 1 (item0 [])).wellFormed = true ∧ (Instr.extW1 8 (item0 [])).wellFormed = true ∧
    (Instr.extW2 9 (item0 [])).wellFormed = true ∧ (Instr.extW2 16 (item0 [])).wellFormed = true ∧
    (Instr.extW3 17 (item0 [])).wellFormed = true ∧ (Instr.extW3 24 (item0 [])).wellFormed = true ∧
    (Instr.extW4 25 (item0 [])).wellFormed = true ∧ (Instr.extW4 32 (item0 [])).wellFormed = true ∧
    (Instr.extDepthErr 0 (item0 [])).wellFormed = true ∧ (Instr.extDepthErr 33 (item0 [])).wellFormed = true ∧
    (Instr.decSetCi 0 .empty).wellFormed = true := by decide

theorem test_witness_UnpackRefusesReservedExactly :
    Beat.ofSignals 0 0x00050000022008CC 0 false ≠ none ∧ BeatKind.bits .body = 1 ∧ BeatKind.body ≠ .desc := by decide

theorem test_witness_EveryHeaderedFrameDecodesLosslessly : 2 ≤ ([0xFF, 0xFF] : List Byte).length := by decide

theorem test_witness_DepthSelectsExtractionClass :
    4 ≤ (msgType 0x8000).toNat ∧ 4 ≤ (msgType 0xFFFF).toNat ∧ (msgType 0x7FFF).toNat < 4 ∧
    (1 ≤ (1 : Word).toNat ∧ (8 : Word).toNat ≤ 8) ∧ (9 ≤ (9 : Word).toNat ∧ (16 : Word).toNat ≤ 16) ∧
    (17 ≤ (17 : Word).toNat ∧ (24 : Word).toNat ≤ 24) ∧ (25 ≤ (25 : Word).toNat ∧ (32 : Word).toNat ≤ 32) ∧
    ((0 : Word).toNat = 0 ∧ 32 < (33 : Word).toNat) := by decide

theorem test_witness_EncodedLengthIsDeclaredLength :
    (∃ G, encodeControl 1 0x0018 [] = .ok G) ∧ (∃ G, encodeData 7 0xBEEF [1, 2] = .ok G) := ⟨⟨_, rfl⟩, ⟨_, rfl⟩⟩

theorem test_witness_EncoderRefusesLongPayloads :
    (List.replicate 8187 (0 : Byte)).length = 8187 ∧ (List.replicate 8188 (0 : Byte)).length = 8188 ∧
    ∃ G, encodeControl 0 0x0018 (List.replicate 8187 0) = .ok G := by
  refine ⟨List.length_replicate, List.length_replicate, ?_⟩
  simp only [encodeControl, encodeItem, List.length_replicate]
  exact ⟨_, rfl⟩

theorem test_witness_EncodedItemsRoundTrip :
    ([1, 2] : List Byte).length ≤ 8187 ∧ (3 : BitVec 3).toNat < 4 ∧ 4 ≤ (4 : BitVec 3).toNat ∧ refCfg.knows 0x0018 = true := by
  decide

theorem test_witness_HeaderReportedFromTwoBytes :
    ([0xFF, 0xFF] : List Byte) = 0xFF :: 0xFF :: [] ∧ ([0x50] : List Byte).length < 2 := by decide

theorem test_witness_DeclaredLengthIsOnlyReported :
    (decodeFrame refCfg (loByte (headerWord 1 0) :: hiByte (headerWord 1 0) :: [0x20, 0, 1])).status = .ok := by decide

theorem test_witness_PayloadBytesCountTheFrame :
    ((decodeFrame refCfg [0x04, 0x80, 0, 0]).status = .ok ∧ (decodeFrame refCfg [0x04, 0x80, 0, 0]).isData = true ∧
      1 ≤ (1 : Word).toNat ∧ (32 : Word).toNat ≤ 32) ∧
    ((decodeFrame refCfg [0x05, 0x20, 0x20, 0, 1]).status = .ok ∧
      (decodeFrame refCfg [0x05, 0x20, 0x20, 0, 1]).isData = false) := by decide

theorem test_witness_KnownControlFrameOutputsItsBody :
    State.reset.phase = .idle ∧ Config.params.knows Config.params.codeNone = true := ⟨rfl, Config.params_knows_codeNone⟩

theorem test_witness_UnknownCodeOutputsDescriptorAlone :
    State.reset.phase = .idle ∧ Config.params.knows 9999 = false := by
  refine ⟨rfl, ?_⟩
  simp only [Bool.eq_false_iff, ne_eq, Params.knows_iff, Config.params, Config.receiverStateCode, List.mem_cons, List.mem_map,
    not_or, not_exists, not_and]
  exact ⟨fun h => Config.codeAt_ne_9999 _ h.symm, fun h => Config.codeAt_ne_9999 _ h.symm, fun i _ => Config.codeAt_ne_9999 i⟩

theorem test_witness_Code9999AlwaysFails : (atDepth 8).phase = .idle := rfl

theorem test_witness_ShortFrameOutputsDescriptorAlone : State.reset.phase = .idle := rfl

theorem test_witness_DataFrameOutputsItsSamples :
    (atDepth 1).phase = .idle ∧ (1 ≤ (atDepth 1).cfg.toNat ∧ (atDepth 32).cfg.toNat ≤ 32) ∧
    (¬ 1 ≤ (atDepth 0).cfg.toNat ∧ ¬ (atDepth 33).cfg.toNat ≤ 32) := by decide

theorem test_witness_DataFrameRunsSelectedClass : (atDepth 16).phase = .idle := rfl

theorem test_witness_ExtractFailsExactlyOutOfRange :
    (0 : Word).toNat = 0 ∧ 32 < (33 : Word).toNat ∧ 1 ≤ (1 : Word).toNat ∧ (32 : Word).toNat ≤ 32 := by decide

theorem test_witness_WidthIsCeilingOfDepthOverEight :
    1 ≤ (1 : Word).toNat ∧ (8 : Word).toNat ≤ 8 ∧ 9 ≤ (9 : Word).toNat ∧ (16 : Word).toNat ≤ 16 ∧ 17 ≤ (17 : Word).toNat ∧
    (24 : Word).toNat ≤ 24 ∧ 25 ≤ (25 : Word).toNat ∧ (32 : Word).toNat ≤ 32 := by decide

theorem test_witness_ChunksPartitionTheBody : 1 ≤ 2 ∧ (2 : BitVec 3).toNat = 2 ∧ 0 + 1 < (chunks 2 [1, 2, 3]).length := by decide

theorem test_witness_ShortFinalChunkStandsAlone :
    1 ≤ (4 : BitVec 3).toNat ∧ (4 : BitVec 3).toNat ≤ 4 ∧ ([1, 2, 3, 4, 5] : List Byte).length % (4 : BitVec 3).toNat ≠ 0 := by
  decide

theorem test_witness_SampleValueIsExtendedChunk :
    1 ≤ ([0x80] : List Byte).length ∧ ([1, 2, 3, 4] : List Byte).length ≤ 4 ∧ ([1, 2, 3, 4] : List Byte).length = 4 := by decide

theorem test_witness_DecodedFrameRunsTheFrameStep :
    decode (.frame [0x04, 0xC0, 0x00, 0x01]) = .ok (.decData2 4 (.fields 0x0100 [])) ∧ (atDepth 24).phase = .idle := ⟨rfl, rfl⟩

theorem test_witness_SerialMachineEmitsFrameOut : ([0x50] : List Byte) ≠ [] ∧ (atDepth 24).phase = .idle := by decide

theorem test_witness_FrameOperationsRefineSerialMachine :
    decode (.frame [0x04, 0x00, 0x18, 0x00]) = .ok (.decSetCi 4 (.fields 0x0018 [])) := rfl

theorem test_witness_ExtractionRefinesSerialMachine :
    let s : State := { atDepth 8 with phase := .fld1, word := 0x8006, fldLo := 5, dLat := 16 }
    s.phase = .fld1 ∧
      decode (.extract s.dLat s.word (le16 s.fldLo 1) [1, 2, 3]) = .ok (.extW2 16 ⟨0, 6, 0x0105, [1, 2, 3]⟩) := ⟨rfl, rfl⟩

theorem test_witness_DepthIsLatchedAtFirstByte :
    (atDepth 16).phase = .idle ∧ ({ atDepth 16 with phase := .samples } : State).phase ≠ .idle ∧
    (let s : State := { atDepth 16 with
       turns := [.byteWithConfig], fIn := [⟨8, false⟩], cIn := [⟨true, 0, 8⟩], oq := [⟨.body, 1, 1, true⟩] }
     s.turns = .byteWithConfig :: [] ∧ s.fIn = ⟨8, false⟩ :: [] ∧ s.cIn = ⟨true, 0, 8⟩ :: [] ∧ s.phase = .idle ∧
       (⟨8, false⟩ : FBeat).last = false) ∧
    (let s : State := { atDepth 16 with turns := [.byteWithConfig], fIn := [⟨8, true⟩], cIn := [⟨true, 0, 8⟩] }
     s.turns = .byteWithConfig :: [] ∧ s.fIn = ⟨8, true⟩ :: [] ∧ s.cIn = ⟨true, 0, 8⟩ :: [] ∧ s.phase = .idle ∧ s.oq = []) := by
  decide

theorem test_witness_UnterminatedFrameNeverReturnsToIdle : ([0x06] : List Byte) ≠ [] := by decide

theorem test_witness_ByteAcceptedOrLeftOnThePort :
    (let s : State := { State.reset with fIn := [⟨6, false⟩], oq := [⟨.body, 1, 1, true⟩] }
     s.fIn = ⟨6, false⟩ :: [] ∧ (serialNext Config.params 6 false s).2 = none) ∧
    (let s : State := { State.reset with fIn := [⟨6, true⟩] }
     s.fIn = ⟨6, true⟩ :: [] ∧ s.oq = []) := ⟨⟨rfl, rfl⟩, ⟨rfl, rfl⟩⟩

theorem test_witness_StepRunsDecodedInstruction :
    fetch { State.reset with turns := [.config], cIn := [⟨true, 0, 9⟩] } = .op (.config true 0 9) State.reset ∧
    decode (.config true 0 9) = .ok (.cfgWr 0 9) := ⟨rfl, rfl⟩

theorem test_witness_FrameTurnFetchesWholeFrame :
    let s : State := { State.reset with turns := [.frame], fIn := [⟨4, false⟩, ⟨0x20, true⟩, ⟨1, false⟩] }
    ([4, 0x20] : List Byte) ≠ [] ∧ s.turns = .frame :: [] ∧ s.fIn = frameBeats [4, 0x20] ++ [⟨1, false⟩] ∧ s.phase = .idle ∧
      s.oq = [] := by decide

theorem test_witness_FrameLineOutputsFrameOut :
    ([0x50] : List Byte) ≠ [] ∧ State.reset.turns = [] ∧ State.reset.fIn = [] ∧ State.reset.phase = .idle ∧
      State.reset.oq = [] := by decide

theorem test_witness_OutputQueueIsFifo :
    (∃ t, step { State.reset with turns := [.take], oq := [⟨.body, 1, 1, true⟩] } = .next t ∧ t.delivered.length = 1) ∧
    (∃ t, step { State.reset with turns := [.rst], oq := [⟨.body, 1, 1, true⟩] } = .next t ∧ t.oq = []) ∧
    (∃ t, step { State.reset with turns := [.byte], fIn := [⟨6, true⟩] } = .next t ∧ t.oq.length = 1) :=
  ⟨⟨_, rfl, rfl⟩, ⟨_, rfl, rfl⟩, ⟨_, rfl, rfl⟩⟩

theorem test_witness_TakingDrainsTheQueueInOrder :
    let s : State := { State.reset with turns := [.take, .take, .rst], oq := [⟨.body, 1, 1, false⟩, ⟨.body, 2, 1, true⟩] }
    s.turns = List.replicate s.oq.length .take ++ [.rst] := by decide

theorem test_witness_InstancesDoNotInterfere :
    stepInstance 0 [{ State.reset with turns := [.take] }, atDepth 8] = .next [State.reset, atDepth 8] ∧ 1 ≠ 0 :=
  ⟨rfl, by decide⟩

theorem test_witness_StepKeepsInvariant :
    let s : State := { atDepth 16 with
      phase := .samples, idx := 5, hdrLo := 8, word := 0x8008, dLat := 16, w := 2, m := 1, acc := 1,
      oq := [⟨.sample, 3, 2, false⟩], fIn := [⟨2, true⟩], turns := [.take] }
    s.Inv ∧ ∃ t, step s = .next t ∧ t.oq = [] := ⟨by decide, _, rfl, rfl⟩

end Sys2Proof.Tests
end

/-! The configuration registers behind port C: what the two accesses answer, and the block right after reset
(O3, O6, O58). -/

namespace Sys2Proof.Machine

/-! ### The two accesses of port C -/

theorem decode_config_write (off : BitVec 8) (v : Word) : decode (.config true off v) = .ok (.cfgWr off v) := rfl

theorem exec_cfgWr (off : BitVec 8) (v : Word) (s : State) : exec (.cfgWr off v) s = .next (writeReg off v s) := rfl

theorem exec_cfgRd (off : BitVec 8) (s : State) :
    exec (.cfgRd off) s = .next { s with replies := s.replies ++ [readReg off s] } := rfl

/-- Where CFG is 0, every offset reads 0, the reserved ones included. -/
theorem readReg_of_cfg_zero (off : BitVec 8) (s : State) (h : s.cfg = 0) : readReg off s = 0 := by
  by_cases hoff : off = 0
  · rw [hoff, readReg_cfg, h]
  · exact readReg_reserved off s hoff

/-- Settles O3, by what the registers do at a reserved offset. -/
theorem reservedOffsetsReadZeroIgnoreWrites : Obligations.ReservedOffsetsReadZeroIgnoreWrites := by
  intro off v s hoff
  constructor
  · rw [exec_cfgWr, writeReg_reserved off v s hoff]
  · rw [exec_cfgRd, readReg_reserved off s hoff]

/-! ### The block right after reset -/

/-- Settles O6: the fields stand in `State.reset`, and CFG 0 makes every offset read 0. -/
theorem resetStateHoldsSpecValues : Obligations.ResetStateHoldsSpecValues := by
  refine ⟨rfl, rfl, rfl, rfl, rfl, rfl, fun off => ?_⟩
  rw [exec_cfgRd, readReg_of_cfg_zero off State.reset rfl]
  rfl

/-- A block that waits for a frame's first byte with OQ empty and no sample begun meets the invariant, if what it has
delivered is legal. -/
theorem inv_of_idle_of_empty (s : State) (hoq : s.oq = []) (hdelivered : s.delivered.all Beat.legal = true)
    (hphase : s.phase = .idle) (hidx : s.idx = 0) (hacc : s.acc = 0) (hm : s.m = 0) : s.Inv := by
  have hframed : framed s.oq = true ∧ lastMatchesPhase s = true := by simp [framed, lastMatchesPhase, hoq]
  have hregs : inFlightOk s = true := by simp [inFlightOk, hphase, hidx, hacc, hm]
  exact ⟨⟨by simp [hoq], hdelivered⟩, hframed, hregs⟩

/-- Settles O58: the reset state is idle with nothing output. -/
theorem invariantHoldsAtReset : Obligations.InvariantHoldsAtReset :=
  inv_of_idle_of_empty State.reset rfl rfl rfl rfl rfl rfl

end Sys2Proof.Machine

/-! R28: the depth of a frame is CFG as it stood at the frame's first byte (O47). The first byte loads it; every later
phase of the byte-serial machine keeps it and reads no CFG, which is proved phase by phase. -/

namespace Sys2Proof.Machine

/-! ### The first byte -/

theorem serialNext_of_idle (P : Params) (b : Byte) (L : Bool) (s : State) (h : s.phase = .idle) :
    serialNext P b L s = serialIdle b L s := by simp [serialNext, h]

theorem serialIdle_dLat (b : Byte) (L : Bool) (s : State) : (serialIdle b L s).1.dLat = s.cfg := by
  cases L <;> rfl

theorem serialIdle_cIn (b : Byte) (L : Bool) (s : State) : (serialIdle b L s).1.cIn = s.cIn := by
  cases L <;> rfl

theorem serialIdle_open_beat (b : Byte) (s : State) : (serialIdle b false s).2 = none := rfl

theorem accept_of_idle (P : Params) (b : Byte) (L : Bool) (s : State) (h : s.phase = .idle) :
    accept P b L s = commit (serialIdle b L (countByte L s)) := by
  rw [accept_eq, serialNext_of_idle P b L (countByte L s) h]

/-- A frame's first byte latches CFG. -/
theorem accept_dLat_of_idle (P : Params) (b : Byte) (L : Bool) (s : State) (h : s.phase = .idle) :
    (accept P b L s).dLat = s.cfg := by
  rw [accept_of_idle P b L s h, commit_dLat, serialIdle_dLat, countByte_cfg]

theorem accept_cIn_of_idle (P : Params) (b : Byte) (L : Bool) (s : State) (h : s.phase = .idle) :
    (accept P b L s).cIn = s.cIn := by
  rw [accept_of_idle P b L s h, commit_cIn, serialIdle_cIn, countByte_cIn]

/-! ### The later bytes -/

/-- What a byte inside a frame may do with the depth: it keeps the latched one, and CFG passes through it unread. -/
structure UsesLatchedDepth (f : State → State × Option Beat) : Prop where
  dLat_kept : ∀ s, (f s).1.dLat = s.dLat
  cfg_unread : ∀ s v, f { s with cfg := v } = ({ (f s).1 with cfg := v }, (f s).2)

theorem serialHdr1_usesLatchedDepth (b : Byte) (L : Bool) : UsesLatchedDepth (serialHdr1 b L) where
  dLat_kept _ := by cases L <;> rfl
  cfg_unread _ _ := by cases L <;> rfl

theorem serialFld0_usesLatchedDepth (b : Byte) (L : Bool) : UsesLatchedDepth (serialFld0 b L) where
  dLat_kept _ := by cases L <;> rfl
  cfg_unread _ _ := by cases L <;> rfl

theorem serialControl_usesLatchedDepth (P : Params) (code : Half) (L : Bool) :
    UsesLatchedDepth (serialControl P code L) where
  dLat_kept s := by simp only [serialControl]; split <;> rfl
  cfg_unread s v := by simp only [serialControl]; split <;> rfl

/-- The depth check of a data frame is on the latched depth. -/
theorem serialData_usesLatchedDepth (P : Params) (seq : Half) (L : Bool) :
    UsesLatchedDepth (serialData P seq L) where
  dLat_kept s := by simp only [serialData]; split <;> rfl
  cfg_unread s v := by simp only [serialData]; split <;> rfl

theorem serialFld1_usesLatchedDepth (P : Params) (b : Byte) (L : Bool) : UsesLatchedDepth (serialFld1 P b L) where
  dLat_kept s := by
    simp only [serialFld1]
    split
    · exact (serialData_usesLatchedDepth P _ L).dLat_kept s
    · exact (serialControl_usesLatchedDepth P _ L).dLat_kept s
  cfg_unread s v := by
    simp only [serialFld1]
    split
    · exact (serialData_usesLatchedDepth P _ L).cfg_unread s v
    · exact (serialControl_usesLatchedDepth P _ L).cfg_unread s v

theorem serialBody_usesLatchedDepth (b : Byte) (L : Bool) : UsesLatchedDepth (serialBody b L) where
  dLat_kept _ := rfl
  cfg_unread _ _ := rfl

theorem serialSamples_usesLatchedDepth (signed : Bool) (b : Byte) (L : Bool) :
    UsesLatchedDepth (serialSamples signed b L) where
  dLat_kept s := by simp only [serialSamples]; split <;> rfl
  cfg_unread s v := by simp only [serialSamples]; split <;> rfl

theorem serialDiscard_usesLatchedDepth (L : Bool) : UsesLatchedDepth (serialDiscard L) where
  dLat_kept _ := rfl
  cfg_unread _ _ := rfl

/-- Inside a frame, what a byte does is one function of the state for each phase, and that function goes by the latched
depth. -/
theorem serialNext_usesLatchedDepth (P : Params) (b : Byte) (L : Bool) (p : Phase) (hp : p ≠ .idle) :
    ∃ f, UsesLatchedDepth f ∧ ∀ s : State, s.phase = p → serialNext P b L s = f s := by
  cases p with
  | idle => exact absurd rfl hp
  | hdr1 => exact ⟨_, serialHdr1_usesLatchedDepth b L, fun s hs => by simp [serialNext, hs]⟩
  | fld0 => exact ⟨_, serialFld0_usesLatchedDepth b L, fun s hs => by simp [serialNext, hs]⟩
  | fld1 => exact ⟨_, serialFld1_usesLatchedDepth P b L, fun s hs => by simp [serialNext, hs]⟩
  | body => exact ⟨_, serialBody_usesLatchedDepth b L, fun s hs => by simp [serialNext, hs]⟩
  | samples => exact ⟨_, serialSamples_usesLatchedDepth P.sampleSigned b L, fun s hs => by simp [serialNext, hs]⟩
  | discard => exact ⟨_, serialDiscard_usesLatchedDepth L, fun s hs => by simp [serialNext, hs]⟩

/-- A later byte of a frame keeps the latched depth and does not read CFG. -/
theorem accept_usesLatchedDepth (P : Params) (b : Byte) (L : Bool) (s : State) (v : Word) (h : s.phase ≠ .idle) :
    (accept P b L s).dLat = s.dLat ∧ accept P b L { s with cfg := v } = { accept P b L s with cfg := v } := by
  obtain ⟨f, hf, hnext⟩ := serialNext_usesLatchedDepth P b L s.phase h
  have heq : accept P b L s = commit (f (countByte L s)) := by rw [accept_eq, hnext (countByte L s) rfl]
  have heqCfg : accept P b L { s with cfg := v } = commit (f { countByte L s with cfg := v }) := by
    rw [accept_eq, hnext (countByte L { s with cfg := v }) rfl]
    rfl
  constructor
  · rw [heq, commit_dLat, hf.dLat_kept, countByte_dLat]
  · rw [heqCfg, heq, hf.cfg_unread]
    rfl

/-! ### A byte and a write accepted together -/

/-- R162: a byte that emits no beat, or that finds port O free, is accepted. -/
theorem acceptByte_of_room (s : State) (f : FBeat) (fs : List FBeat) (hf : s.fIn = f :: fs)
    (h : (serialNext Config.params f.data f.last s).2 = none ∨ s.oq = []) :
    acceptByte s = accept Config.params f.data f.last { s with fIn := fs } := by
  unfold acceptByte
  rw [hf]
  dsimp only
  split
  · rfl
  · next _ hbeat =>
    have hoq : s.oq = [] := h.resolve_left (by simp [hbeat])
    rw [roomOnO_of_empty s hoq]

/-- A frame's first byte is accepted at once, unless it ends its frame and port O is taken. -/
theorem acceptByte_of_idle (s : State) (f : FBeat) (fs : List FBeat) (hf : s.fIn = f :: fs) (hs : s.phase = .idle)
    (h : f.last = false ∨ s.oq = []) :
    acceptByte s = accept Config.params f.data f.last { s with fIn := fs } := by
  refine acceptByte_of_room s f fs hf (h.imp_left fun hlast => ?_)
  rw [serialNext_of_idle _ _ _ s hs, hlast, serialIdle_open_beat]

theorem fetchConfig_cons (s : State) (a : CAccess) (rest : List CAccess) (h : s.cIn = a :: rest) :
    fetchConfig s = .op (.config a.write a.addr a.wdata) { s with cIn := rest } := by simp [fetchConfig, h]

theorem fetch_cons (s : State) (t : Turn) (ts : List Turn) (h : s.turns = t :: ts) :
    fetch s = fetchTurn t { s with turns := ts } := by simp [fetch, h]

theorem step_of_fetch_op (s s' : State) (x : Transfer) (h : fetch s = .op x s') : step s = runTransfer x s' := by
  simp [step, stepTurn, h]

/-- A joint turn with a write to the depth register: the byte first, then the write. -/
theorem step_byteWithConfig_write (s : State) (ts : List Turn) (v : Word) (cs : List CAccess)
    (hturns : s.turns = .byteWithConfig :: ts) (hc : (acceptByte { s with turns := ts }).cIn = ⟨true, 0, v⟩ :: cs) :
    step s = .next { acceptByte { s with turns := ts } with cIn := cs, cfg := v } := by
  have hfetch : fetch s = .op (.config true 0 v) { acceptByte { s with turns := ts } with cIn := cs } := by
    rw [fetch_cons s _ ts hturns]
    exact fetchConfig_cons _ _ cs hc
  rw [step_of_fetch_op s _ _ hfetch, runTransfer_ok _ _ _ (decode_config_write 0 v), exec_cfgWr, writeReg_cfg]

/-- Settles O47: the first byte latches CFG, the later ones go by the latched depth, and in the joint turn the byte comes
before the write. -/
theorem depthIsLatchedAtFirstByte : Obligations.DepthIsLatchedAtFirstByte := by
  refine ⟨accept_dLat_of_idle, accept_usesLatchedDepth, ?_⟩
  intro s ts f fs v cs hturns hf hc hs hroom
  have hbyte : acceptByte { s with turns := ts } =
      accept Config.params f.data f.last { s with turns := ts, fIn := fs } :=
    acceptByte_of_idle { s with turns := ts } f fs hf hs hroom
  have hcIn : (acceptByte { s with turns := ts }).cIn = ⟨true, 0, v⟩ :: cs := by
    rw [hbyte, accept_cIn_of_idle _ _ _ { s with turns := ts, fIn := fs } hs, hc]
  have hdLat : (acceptByte { s with turns := ts }).dLat = s.cfg := by
    rw [hbyte, accept_dLat_of_idle _ _ _ { s with turns := ts, fIn := fs } hs]
  exact ⟨_, step_byteWithConfig_write s ts v cs hturns hcIn, hdLat, rfl⟩

end Sys2Proof.Machine

/-! R41: where the header's fields lie in its two bytes (O10). -/

namespace Sys2Proof

/-- R40: the two bytes' bits do not overlap, so the word is their sum at their places. -/
theorem toNat_le16 (b0 b1 : Byte) : (le16 b0 b1).toNat = b0.toNat + 256 * b1.toNat := by
  have h0 : b0.toNat < 2 ^ 8 := b0.isLt
  have h1 : b1.toNat < 2 ^ 8 := b1.isLt
  have hlo : b0.toNat % 2 ^ 16 = b0.toNat := Nat.mod_eq_of_lt (by omega)
  have hhi : (b1.toNat % 2 ^ 16) <<< 8 % 2 ^ 16 = b1.toNat <<< 8 := by
    simp only [Nat.shiftLeft_eq]; omega
  calc (le16 b0 b1).toNat
      = b0.toNat ||| b1.toNat <<< 8 := by
        simp only [le16, BitVec.toNat_or, BitVec.toNat_shiftLeft, BitVec.toNat_setWidth, hlo, hhi]
    _ = b1.toNat <<< 8 + b0.toNat := by rw [Nat.or_comm, Nat.shiftLeft_add_eq_or_of_lt h0]
    _ = b0.toNat + 256 * b1.toNat := by rw [Nat.shiftLeft_eq]; omega

theorem toNat_msgType (word : Half) : (msgType word).toNat = word.toNat / 2 ^ 13 := by
  have hword := word.isLt
  rw [msgType, BitVec.extractLsb'_toNat, Nat.shiftRight_eq_div_pow]
  omega

theorem toNat_declaredLength (word : Half) : (declaredLength word).toNat = word.toNat % 2 ^ 13 := by
  rw [declaredLength, BitVec.extractLsb'_toNat, Nat.shiftRight_zero]

end Sys2Proof

namespace Sys2Proof.Machine

/-- Settles O10: the fields are a quotient and a remainder of the header word, which is the sum of its bytes. -/
theorem headerFieldsInBytes : Obligations.HeaderFieldsInBytes := by
  intro b0 b1
  have h0 := b0.isLt
  refine ⟨toNat_le16 b0 b1, ?_, ?_⟩
  · rw [toNat_msgType, toNat_le16]; omega
  · rw [toNat_declaredLength, toNat_le16]; omega

end Sys2Proof.Machine

/-! What one step does to OQ and to CFG (O9, O55). Everything port F does leaves CFG and port C alone and only appends to
OQ, which is proved operation by operation; `step_cases` then says once what a step can do. -/

namespace Sys2Proof.Machine

/-! ### Changes that only emit beats -/

/-- From `s` to `t` at most beats were appended to OQ: CFG, the accesses offered on port C and the beats already delivered
are as they were. -/
structure OnlyEmits (s t : State) : Prop where
  cfg : t.cfg = s.cfg
  cIn : t.cIn = s.cIn
  delivered : t.delivered = s.delivered
  oq : s.oq <+: t.oq

theorem OnlyEmits.of_fields {s t : State} (cfg : t.cfg = s.cfg) (cIn : t.cIn = s.cIn)
    (delivered : t.delivered = s.delivered) (oq : t.oq = s.oq) : OnlyEmits s t :=
  ⟨cfg, cIn, delivered, oq ▸ List.prefix_rfl⟩

theorem OnlyEmits.refl (s : State) : OnlyEmits s s := .of_fields rfl rfl rfl rfl

theorem OnlyEmits.trans {s t u : State} (hst : OnlyEmits s t) (htu : OnlyEmits t u) : OnlyEmits s u where
  cfg := htu.cfg.trans hst.cfg
  cIn := htu.cIn.trans hst.cIn
  delivered := htu.delivered.trans hst.delivered
  oq := hst.oq.trans htu.oq

theorem OnlyEmits.emit {s t : State} (bs : List Beat) (h : OnlyEmits s t) : OnlyEmits s (emit bs t) :=
  h.trans ⟨rfl, rfl, rfl, List.prefix_append _ _⟩

theorem OnlyEmits.commit {s : State} {r : State × Option Beat} (h : OnlyEmits s r.1) : OnlyEmits s (commit r) :=
  h.emit r.2.toList

theorem errorEntry_onlyEmits (d : Desc) (L : Bool) (s : State) : OnlyEmits s (errorEntry d L s).1 :=
  .of_fields rfl rfl rfl rfl

/-! ### Bytes -/

theorem serialControl_onlyEmits (P : Params) (code : Half) (L : Bool) (s : State) :
    OnlyEmits s (serialControl P code L s).1 := by
  simp only [serialControl]
  split
  · exact .of_fields rfl rfl rfl rfl
  · exact errorEntry_onlyEmits _ L s

theorem serialData_onlyEmits (P : Params) (seq : Half) (L : Bool) (s : State) :
    OnlyEmits s (serialData P seq L s).1 := by
  simp only [serialData]
  split
  · exact .of_fields rfl rfl rfl rfl
  · exact errorEntry_onlyEmits _ L s

theorem serialFld1_onlyEmits (P : Params) (b : Byte) (L : Bool) (s : State) : OnlyEmits s (serialFld1 P b L s).1 := by
  simp only [serialFld1]
  split
  · exact serialData_onlyEmits P _ L s
  · exact serialControl_onlyEmits P _ L s

theorem serialSamples_onlyEmits (signed : Bool) (b : Byte) (L : Bool) (s : State) :
    OnlyEmits s (serialSamples signed b L s).1 := by
  simp only [serialSamples]
  split <;> exact .of_fields rfl rfl rfl rfl

/-- In every phase, a byte changes in-flight registers alone; its beat is not yet in OQ. -/
theorem serialNext_onlyEmits (P : Params) (b : Byte) (L : Bool) (s : State) : OnlyEmits s (serialNext P b L s).1 := by
  unfold serialNext
  cases s.phase with
  | idle => cases L <;> exact .of_fields rfl rfl rfl rfl
  | hdr1 => cases L <;> exact .of_fields rfl rfl rfl rfl
  | fld0 => cases L <;> exact .of_fields rfl rfl rfl rfl
  | fld1 => exact serialFld1_onlyEmits P b L s
  | body => exact .of_fields rfl rfl rfl rfl
  | samples => exact serialSamples_onlyEmits P.sampleSigned b L s
  | discard => exact .of_fields rfl rfl rfl rfl

theorem accept_onlyEmits (P : Params) (b : Byte) (L : Bool) (s : State) : OnlyEmits s (accept P b L s) := by
  have hcount : OnlyEmits s (countByte L s) := .of_fields rfl rfl rfl rfl
  rw [accept_eq]
  exact (hcount.trans (serialNext_onlyEmits P b L _)).commit

theorem acceptBeats_onlyEmits (P : Params) (fs : List FBeat) (s : State) : OnlyEmits s (acceptBeats P fs s) := by
  induction fs generalizing s with
  | nil => exact .refl s
  | cons f fs ih => exact (accept_onlyEmits P f.data f.last s).trans (ih _)

theorem acceptByte_onlyEmits (s : State) : OnlyEmits s (acceptByte s) := by
  obtain ⟨-, h⟩ | ⟨n, h⟩ | ⟨f, rest, n, -, h⟩ := acceptByte_cases s
  · rw [h]; exact .refl s
  · rw [h]; exact .of_fields rfl rfl rfl rfl
  · have htaken : OnlyEmits s { s with freeIx := n, fIn := rest } := .of_fields rfl rfl rfl rfl
    rw [h]
    exact htaken.trans (accept_onlyEmits _ _ _ _)

/-! ### Whole frames -/

theorem latchFrame_onlyEmits (word : Half) (tail : Tail) (s : State) : OnlyEmits s (latchFrame word tail s) :=
  .of_fields rfl rfl rfl rfl

theorem shortFrame_onlyEmits (word : Half) (s : State) : OnlyEmits s (shortFrame word s) :=
  (errorEntry_onlyEmits _ true s).commit

theorem controlItem_onlyEmits (P : Params) (word code : Half) (body : List Byte) (s : State) :
    OnlyEmits s (controlItem P word code body s) := by
  simp only [controlItem]
  split
  · exact (OnlyEmits.refl s).emit _
  · exact (errorEntry_onlyEmits _ true s).commit

theorem sampleItem_onlyEmits (P : Params) (w : BitVec 3) (item : DataItem) (s : State) :
    OnlyEmits s (sampleItem P w item s) :=
  OnlyEmits.emit (t := endFrame { s with w := w, acc := 0, m := 0 }) _ (.of_fields rfl rfl rfl rfl)

theorem depthErrorItem_onlyEmits (P : Params) (item : DataItem) (s : State) :
    OnlyEmits s (depthErrorItem P item s) :=
  OnlyEmits.commit (.of_fields rfl rfl rfl rfl)

theorem extractItem_onlyEmits (P : Params) (d : Word) (item : DataItem) (s : State) :
    OnlyEmits s (extractItem P d item s) := by
  unfold extractItem
  split
  · exact sampleItem_onlyEmits P _ item s
  · exact depthErrorItem_onlyEmits P item s

theorem controlFrame_onlyEmits (P : Params) (t : BitVec 3) (len : BitVec 13) (tail : Tail) (s : State) :
    OnlyEmits s (controlFrame P t len tail s) := by
  by_cases hphase : s.phase = .idle
  · have hlatch := latchFrame_onlyEmits (headerWord t len) tail s
    rw [controlFrame_idle P t len tail s hphase]
    cases tail with
    | empty => exact hlatch.trans (shortFrame_onlyEmits _ _)
    | part lo => exact hlatch.trans (shortFrame_onlyEmits _ _)
    | fields code body => exact hlatch.trans (controlItem_onlyEmits P _ code body _)
  · rw [controlFrame_inFlight P t len tail s hphase]
    exact acceptBeats_onlyEmits P _ s

theorem dataFrame_onlyEmits (P : Params) (sub : BitVec 2) (len : BitVec 13) (tail : Tail) (s : State) :
    OnlyEmits s (dataFrame P sub len tail s) := by
  by_cases hphase : s.phase = .idle
  · have hlatch := latchFrame_onlyEmits (headerWord (dataType sub) len) tail s
    rw [dataFrame_idle P sub len tail s hphase]
    cases tail with
    | empty => exact hlatch.trans (shortFrame_onlyEmits _ _)
    | part lo => exact hlatch.trans (shortFrame_onlyEmits _ _)
    | fields seq body => exact hlatch.trans (extractItem_onlyEmits P _ _ _)
  · rw [dataFrame_inFlight P sub len tail s hphase]
    exact acceptBeats_onlyEmits P _ s

/-! ### The operations port F brings -/

/-- A frame decode of any of the eight types. -/
theorem exec_decodeHeader_onlyEmits (word : Half) (tail : Tail) (s : State) :
    ∃ t, exec (decodeHeader word tail) s = .next t ∧ OnlyEmits s t := by
  unfold decodeHeader
  dsimp only
  split
  · exact ⟨_, rfl, controlFrame_onlyEmits _ 0 _ tail s⟩
  · exact ⟨_, rfl, controlFrame_onlyEmits _ 1 _ tail s⟩
  · exact ⟨_, rfl, controlFrame_onlyEmits _ 2 _ tail s⟩
  · exact ⟨_, rfl, controlFrame_onlyEmits _ 3 _ tail s⟩
  · exact ⟨_, rfl, dataFrame_onlyEmits _ 0 _ tail s⟩
  · exact ⟨_, rfl, dataFrame_onlyEmits _ 1 _ tail s⟩
  · exact ⟨_, rfl, dataFrame_onlyEmits _ 2 _ tail s⟩
  · exact ⟨_, rfl, dataFrame_onlyEmits _ 3 _ tail s⟩

/-- An extraction of any of the five classes. -/
theorem exec_decodeDepth_onlyEmits (depth : Word) (item : DataItem) (s : State) :
    ∃ t, exec (decodeDepth depth item) s = .next t ∧ OnlyEmits s t := by
  unfold decodeDepth
  dsimp only
  split_ifs
  · exact ⟨_, rfl, depthErrorItem_onlyEmits _ item s⟩
  · exact ⟨_, rfl, sampleItem_onlyEmits _ 1 item s⟩
  · exact ⟨_, rfl, sampleItem_onlyEmits _ 2 item s⟩
  · exact ⟨_, rfl, sampleItem_onlyEmits _ 3 item s⟩
  · exact ⟨_, rfl, sampleItem_onlyEmits _ 4 item s⟩

theorem runTransfer_frame_onlyEmits (F : List Byte) (s : State) :
    ∃ t, runTransfer (.frame F) s = .next t ∧ OnlyEmits s t := by
  match F with
  | [] => exact ⟨_, rfl, .refl s⟩
  | [_] => exact ⟨_, rfl, acceptBeats_onlyEmits _ _ s⟩
  | lo :: hi :: rest => exact exec_decodeHeader_onlyEmits (le16 lo hi) (tailOf rest) s

theorem runTransfer_extract_onlyEmits (depth : Word) (word field : Half) (body : List Byte) (s : State) :
    ∃ t, runTransfer (.extract depth word field body) s = .next t ∧ OnlyEmits s t := by
  cases htype : isDataType (msgType word) with
  | true =>
    rw [runTransfer_ok (.extract depth word field body) s _ (by rw [decode, if_pos htype])]
    exact exec_decodeDepth_onlyEmits depth _ s
  | false =>
    have hdecode : decode (.extract depth word field body) = .error .notDataItem := by simp [decode, htype]
    exact ⟨s, runTransfer_error _ s _ hdecode, .refl s⟩

/-! ### One turn -/

theorem fetch_nil (s : State) (h : s.turns = []) : fetch s = .done s := by simp [fetch, h]

theorem fetchConfig_nil (s : State) (h : s.cIn = []) : fetchConfig s = .done s := by simp [fetchConfig, h]

/-- One step from what its turn came to; `stepTurn` is this after `fetch`. -/
def runFetched : Fetched → Host.Outcome State Fault Refusal
  | .op x s => runTransfer x s
  | .done s => .next s

theorem step_eq_runFetched (s : State) : step s = runFetched (fetch s) := by
  unfold step stepTurn runFetched
  cases fetch s <;> rfl

/-- The bytes of a frame turn, whether they are a frame, go to the extractor or end the frame in flight. -/
theorem runFetched_fetchBytes_onlyEmits (F : List Byte) (s : State) :
    ∃ t, runFetched (fetchBytes F s) = .next t ∧ OnlyEmits s t := by
  unfold fetchBytes
  split
  · exact runTransfer_frame_onlyEmits _ s
  · exact runTransfer_extract_onlyEmits _ _ _ _ s
  · exact ⟨_, rfl, acceptBeats_onlyEmits _ _ s⟩

theorem runFetched_fetchFrame_onlyEmits (s : State) :
    ∃ t, runFetched (fetchFrame s) = .next t ∧ OnlyEmits s t := by
  obtain ⟨-, h⟩ | ⟨n, h⟩ | ⟨F, rest, n, -, -, h⟩ := fetchFrame_cases s
  · exact ⟨s, by rw [h]; rfl, .refl s⟩
  · exact ⟨{ s with freeIx := n }, by rw [h]; rfl, .of_fields rfl rfl rfl rfl⟩
  · have htaken : OnlyEmits s { s with freeIx := n, fIn := rest } := .of_fields rfl rfl rfl rfl
    obtain ⟨t, hrun, ht⟩ := runFetched_fetchBytes_onlyEmits F { s with freeIx := n, fIn := rest }
    exact ⟨t, by rw [h, hrun], htaken.trans ht⟩

/-- What one step can do to CFG, OQ and the record of beats taken. A config access is accepted in a state `u` that a byte
of the same turn may have reached. -/
inductive StepEffect (s : State) : State → Prop where
  | reset (ts : List Turn) (hturns : s.turns = .rst :: ts) : StepEffect s (resetBlock { s with turns := ts })
  | take (ts : List Turn) (hturns : s.turns = .take :: ts) : StepEffect s (takeBeat { s with turns := ts })
  | write (ts : List Turn) (a : CAccess) (as : List CAccess) (u : State)
      (hturns : s.turns = .config :: ts ∨ s.turns = .byteWithConfig :: ts) (hcIn : s.cIn = a :: as)
      (hwrite : a.write = true) (hu : OnlyEmits s u) : StepEffect s (writeReg a.addr a.wdata { u with cIn := as })
  | read (a : CAccess) (as : List CAccess) (u : State) (hu : OnlyEmits s u) :
      StepEffect s { u with cIn := as, replies := u.replies ++ [readReg a.addr u] }
  | emits (t : State) (ht : OnlyEmits s t) : StepEffect s t

/-- The config half of a turn, from the state `u` that its byte half reached. -/
theorem stepEffect_of_fetchConfig {s u t : State} {ts : List Turn} (hu : OnlyEmits s u)
    (hturns : s.turns = .config :: ts ∨ s.turns = .byteWithConfig :: ts)
    (h : runFetched (fetchConfig u) = .next t) : StepEffect s t := by
  cases hcIn : u.cIn with
  | nil =>
    rw [fetchConfig_nil u hcIn] at h
    cases h
    exact .emits u hu
  | cons a as =>
    rw [fetchConfig_cons u a as hcIn] at h
    obtain ⟨write, addr, wdata⟩ := a
    cases write with
    | true =>
      cases h
      exact .write ts ⟨true, addr, wdata⟩ as u hturns (hu.cIn ▸ hcIn) rfl hu
    | false =>
      cases h
      exact .read ⟨false, addr, wdata⟩ as u hu

/-- Every step has one of these effects. -/
theorem step_effect {s t : State} (h : step s = .next t) : StepEffect s t := by
  rw [step_eq_runFetched] at h
  cases hturns : s.turns with
  | nil =>
    rw [fetch_nil s hturns] at h
    cases h
    exact .emits s (.refl s)
  | cons turn ts =>
    rw [fetch_cons s turn ts hturns] at h
    have hturn : OnlyEmits s { s with turns := ts } := .of_fields rfl rfl rfl rfl
    cases turn with
    | rst =>
      cases h
      exact .reset ts hturns
    | config => exact stepEffect_of_fetchConfig hturn (.inl hturns) h
    | frame =>
      obtain ⟨t', hrun, ht⟩ := runFetched_fetchFrame_onlyEmits { s with turns := ts }
      cases hrun.symm.trans h
      exact .emits _ (hturn.trans ht)
    | byte =>
      cases h
      exact .emits _ (hturn.trans (acceptByte_onlyEmits _))
    | byteWithConfig =>
      exact stepEffect_of_fetchConfig (hturn.trans (acceptByte_onlyEmits _)) (.inr hturns) h
    | take =>
      cases h
      exact .take ts hturns

/-! ### OQ and CFG -/

/-- A take moves the head of OQ to the end of the record, where OQ has a head. -/
theorem takeBeat_cases (s : State) :
    takeBeat s = s ∨ ∃ b, s.oq = b :: (takeBeat s).oq ∧ (takeBeat s).delivered = s.delivered ++ [b] := by
  rcases hoq : s.oq with _ | ⟨b, rest⟩
  · exact .inl (takeBeat_nil s hoq)
  · exact .inr ⟨b, by rw [takeBeat_cons s b rest hoq], by rw [takeBeat_cons s b rest hoq]⟩

theorem takeBeat_cfg (s : State) : (takeBeat s).cfg = s.cfg := by
  unfold takeBeat
  split <;> rfl

@[simp] theorem writeReg_oq (off : BitVec 8) (v : Word) (s : State) : (writeReg off v s).oq = s.oq := by
  unfold writeReg
  split <;> rfl

@[simp] theorem writeReg_delivered (off : BitVec 8) (v : Word) (s : State) :
    (writeReg off v s).delivered = s.delivered := by
  unfold writeReg
  split <;> rfl

theorem OnlyEmits.appends {s t : State} (h : OnlyEmits s t) :
    t.delivered = s.delivered ∧ ∃ bs, t.oq = s.oq ++ bs := by
  obtain ⟨bs, hbs⟩ := h.oq
  exact ⟨h.delivered, bs, hbs.symm⟩

/-- Settles O55, by the effects of a step: port C touches no beat, port F appends, a take moves the head, and reset alone
drops. -/
theorem outputQueueIsFifo : Obligations.OutputQueueIsFifo := by
  intro s t hstep
  cases step_effect hstep with
  | reset ts hturns => exact .inr (.inr ⟨⟨ts, hturns⟩, rfl, rfl⟩)
  | take ts hturns =>
    rcases takeBeat_cases { s with turns := ts } with hsame | hmoved
    · rw [hsame]
      exact .inl ⟨rfl, [], (List.append_nil s.oq).symm⟩
    · exact .inr (.inl hmoved)
  | write ts a as u hturns hcIn hwrite hu => exact .inl (by simpa using hu.appends)
  | read a as u hu => exact .inl hu.appends
  | emits t ht => exact .inl ht.appends

/-- Settles O9, by the effects of a step: of those that change CFG, one is reset and the other a write to offset 0. -/
theorem cfgChangesOnlyByWriteOrReset : Obligations.CfgChangesOnlyByWriteOrReset := by
  intro s t hstep hcfg
  cases step_effect hstep with
  | reset ts hturns => exact .inl ⟨ts, hturns, rfl⟩
  | take ts hturns => exact absurd (takeBeat_cfg _) hcfg
  | write ts a as u hturns hcIn hwrite hu =>
    by_cases haddr : a.addr = 0
    · exact .inr ⟨ts, a, as, hturns, hcIn, hwrite, haddr, by rw [haddr, writeReg_cfg]⟩
    · rw [writeReg_reserved _ _ _ haddr] at hcfg
      exact absurd hu.cfg hcfg
  | read a as u hu => exact absurd hu.cfg hcfg
  | emits t ht => exact absurd ht.cfg hcfg

end Sys2Proof.Machine

/-! Decode and encode (spec/30_encoding.md R60 to R64, R82): each turns the other's answer back (O14, O15), and the words of
the opcode table go to their rows (O16). -/

namespace Sys2Proof

/-! ### Frames -/

theorem decode_frame_cons (lo hi : Byte) (rest : List Byte) :
    decode (.frame (lo :: hi :: rest)) = .ok (decodeHeader (le16 lo hi) (tailOf rest)) := rfl

/-- The decoder takes a frame's bytes apart into the header word and the tail they were made of. -/
theorem decode_frameBytes (t : BitVec 3) (len : BitVec 13) (tail : Tail) :
    decode (.frame (frameBytes t len tail)) = .ok (decodeHeader (headerWord t len) tail) := by
  simp [frameBytes, decode_frame_cons]

/-- The encoder gives each of the eight rows the type that selected it (R62). -/
theorem encode_decodeHeader (word : Half) (tail : Tail) :
    encode (decodeHeader word tail) = .frame (frameBytes (msgType word) (declaredLength word) tail) := by
  unfold decodeHeader
  generalize msgType word = t
  fin_cases t <;> rfl

/-- Settles O15: a header's fields and the tail hold all the bytes of the frame. -/
theorem everyHeaderedFrameDecodesLosslessly : Obligations.EveryHeaderedFrameDecodesLosslessly := by
  intro F hF
  match F, hF with
  | lo :: hi :: rest, _ =>
    refine ⟨_, decode_frame_cons lo hi rest, ?_⟩
    rw [encode_decodeHeader, frameBytes_of_bytes]

/-! ### Extraction -/

/-- The depth and the data item reach the extractor as they were sent. -/
theorem decode_extractTransfer (depth : Word) (item : DataItem) :
    decode (extractTransfer depth item) = .ok (decodeDepth depth item) := by
  simp [extractTransfer, decode]

section DepthRanges

variable (depth : Word) (item : DataItem)

theorem decodeDepth_outOfRange (h : depth.toNat = 0 ∨ 32 < depth.toNat) :
    decodeDepth depth item = .extDepthErr depth item := if_pos h

theorem decodeDepth_upTo8 (h : 1 ≤ depth.toNat ∧ depth.toNat ≤ 8) : decodeDepth depth item = .extW1 depth item := by
  have hin : ¬ (depth.toNat = 0 ∨ 32 < depth.toNat) := by omega
  simp [decodeDepth, hin, h.2]

theorem decodeDepth_upTo16 (h : 9 ≤ depth.toNat ∧ depth.toNat ≤ 16) : decodeDepth depth item = .extW2 depth item := by
  have hin : ¬ (depth.toNat = 0 ∨ 32 < depth.toNat) := by omega
  have h8 : ¬ depth.toNat ≤ 8 := by omega
  simp [decodeDepth, hin, h8, h.2]

theorem decodeDepth_upTo24 (h : 17 ≤ depth.toNat ∧ depth.toNat ≤ 24) : decodeDepth depth item = .extW3 depth item := by
  have hin : ¬ (depth.toNat = 0 ∨ 32 < depth.toNat) := by omega
  have h8 : ¬ depth.toNat ≤ 8 := by omega
  have h16 : ¬ depth.toNat ≤ 16 := by omega
  simp [decodeDepth, hin, h8, h16, h.2]

theorem decodeDepth_upTo32 (h : 25 ≤ depth.toNat ∧ depth.toNat ≤ 32) : decodeDepth depth item = .extW4 depth item := by
  have hin : ¬ (depth.toNat = 0 ∨ 32 < depth.toNat) := by omega
  have h8 : ¬ depth.toNat ≤ 8 := by omega
  have h16 : ¬ depth.toNat ≤ 16 := by omega
  have h24 : ¬ depth.toNat ≤ 24 := by omega
  simp [decodeDepth, hin, h8, h16, h24]

end DepthRanges

/-! ### The round trip -/

/-- Decoding undoes the encoding of a row whose header selects it. -/
theorem decode_encode_of_header (i : Instr) (t : BitVec 3) (len : BitVec 13) (tail : Tail)
    (hencode : encode i = .frame (frameBytes t len tail)) (hrow : decodeHeader (headerWord t len) tail = i) :
    decode (encode i) = .ok i := by
  rw [hencode, decode_frameBytes, hrow]

/-- Decoding undoes the encoding of an extraction class whose depth selects it. -/
theorem decode_encode_of_depth (i : Instr) (depth : Word) (item : DataItem)
    (hencode : encode i = extractTransfer depth item) (hrow : decodeDepth depth item = i) : decode (encode i) = .ok i := by
  rw [hencode, decode_extractTransfer, hrow]

/-- Settles O14, row by row: the header's type selects each of the eight frame decodes, the range of its depth each of the
five extraction classes. -/
theorem decodeOfEncodeIsIdentity : Obligations.DecodeOfEncodeIsIdentity := by
  intro i hi
  cases i with
  | decSetCi len tail => exact decode_encode_of_header _ 0 len tail rfl (by simp [decodeHeader])
  | decGetCi len tail => exact decode_encode_of_header _ 1 len tail rfl (by simp [decodeHeader])
  | decCiRange len tail => exact decode_encode_of_header _ 2 len tail rfl (by simp [decodeHeader])
  | decAck len tail => exact decode_encode_of_header _ 3 len tail rfl (by simp [decodeHeader])
  | decData0 len tail => exact decode_encode_of_header _ 4 len tail rfl (by simp [decodeHeader])
  | decData1 len tail => exact decode_encode_of_header _ 5 len tail rfl (by simp [decodeHeader])
  | decData2 len tail => exact decode_encode_of_header _ 6 len tail rfl (by simp [decodeHeader])
  | decData3 len tail => exact decode_encode_of_header _ 7 len tail rfl (by simp [decodeHeader])
  | extW1 depth item =>
    exact decode_encode_of_depth _ depth item rfl (decodeDepth_upTo8 depth item (by simpa [Instr.wellFormed] using hi))
  | extW2 depth item =>
    exact decode_encode_of_depth _ depth item rfl (decodeDepth_upTo16 depth item (by simpa [Instr.wellFormed] using hi))
  | extW3 depth item =>
    exact decode_encode_of_depth _ depth item rfl (decodeDepth_upTo24 depth item (by simpa [Instr.wellFormed] using hi))
  | extW4 depth item =>
    exact decode_encode_of_depth _ depth item rfl (decodeDepth_upTo32 depth item (by simpa [Instr.wellFormed] using hi))
  | extDepthErr depth item =>
    exact decode_encode_of_depth _ depth item rfl
      (decodeDepth_outOfRange depth item (by simpa [Instr.wellFormed] using hi))
  | cfgWr off v => rfl
  | cfgRd off => rfl
  | reset => rfl

/-- Settles O16: each row is the decoder's answer on the four bytes of its word. -/
theorem tableWordsDecodeToTheirRows : Obligations.TableWordsDecodeToTheirRows :=
  ⟨rfl, rfl, rfl, rfl, rfl, rfl, rfl, rfl⟩

end Sys2Proof

/-! A consumer's reading of descriptors and beats (spec/30_encoding.md R66 to R71): it undoes `Pack` (O12), and it refuses
the reserved encodings alone (O13). -/

namespace Sys2Proof.Machine

/-! ### The fields of a packed descriptor

`Pack` is an OR of fields, each shifted to its offset. A bit of the result lies in at most one of them: it is above or below
all the others. -/

/-- Bit `i` of a 64-bit value that holds the field `x` from bit `k` on, and 0 elsewhere. -/
def fieldBit {n : Nat} (x : BitVec n) (k i : Nat) : Bool := (x.setWidth 64 <<< k).getLsbD i

section FieldBit

variable {n : Nat} (x : BitVec n) {k i : Nat}

@[simp] theorem fieldBit_below (h : i < k) : fieldBit x k i = false := by simp [fieldBit, h]

@[simp] theorem fieldBit_above (h : k + n ≤ i) : fieldBit x k i = false := by
  rw [fieldBit, BitVec.getLsbD_shiftLeft, BitVec.getLsbD_setWidth, BitVec.getLsbD_of_ge x (i - k) (by omega)]
  simp

@[simp] theorem fieldBit_at (h : k + i < 64) : fieldBit x k (k + i) = x.getLsbD i := by simp [fieldBit, h]

@[simp] theorem fieldBit_zero (h : i < 64) : fieldBit x 0 i = x.getLsbD i := by simp [fieldBit, h]

@[simp] theorem fieldBit_ofBool (b : Bool) (h : k < 64) : fieldBit (BitVec.ofBool b) k k = b := by simp [fieldBit, h]

end FieldBit

section Pack

variable (d : Desc)

theorem getLsbD_pack (i : Nat) : d.pack.getLsbD i =
    (fieldBit d.status.bits 0 i || fieldBit (BitVec.ofBool d.hdrValid) 2 i || fieldBit (BitVec.ofBool d.isData) 3 i ||
      fieldBit d.type 4 i || fieldBit (BitVec.ofBool d.seqValid) 7 i || fieldBit d.declLen 8 i ||
      fieldBit d.xStatus.bits 21 i || fieldBit d.w 24 i || fieldBit d.code 32 i || fieldBit d.seq 48 i) := by
  simp only [Desc.pack, bit64, fieldBit, BitVec.getLsbD_or, BitVec.shiftLeft_zero]

/-- A field of several bits is read off bit by bit. -/
theorem extractLsb'_pack_eq {n k : Nat} (x : BitVec n) (h : ∀ i < n, d.pack.getLsbD (k + i) = x.getLsbD i) :
    d.pack.extractLsb' k n = x :=
  BitVec.eq_of_getLsbD_eq fun i hi => by rw [BitVec.getLsbD_extractLsb', h i hi]; simp [hi]

theorem pack_status : d.pack.extractLsb' 0 2 = d.status.bits :=
  extractLsb'_pack_eq d _ fun i hi => by rw [getLsbD_pack, Nat.zero_add]; simp (disch := omega)

theorem pack_hdrValid : d.pack.getLsbD 2 = d.hdrValid := by rw [getLsbD_pack]; simp (disch := omega)

theorem pack_isData : d.pack.getLsbD 3 = d.isData := by rw [getLsbD_pack]; simp (disch := omega)

theorem pack_type : d.pack.extractLsb' 4 3 = d.type :=
  extractLsb'_pack_eq d _ fun i hi => by rw [getLsbD_pack]; simp (disch := omega)

theorem pack_seqValid : d.pack.getLsbD 7 = d.seqValid := by rw [getLsbD_pack]; simp (disch := omega)

theorem pack_declLen : d.pack.extractLsb' 8 13 = d.declLen :=
  extractLsb'_pack_eq d _ fun i hi => by rw [getLsbD_pack]; simp (disch := omega)

theorem pack_xStatus : d.pack.extractLsb' 21 2 = d.xStatus.bits :=
  extractLsb'_pack_eq d _ fun i hi => by rw [getLsbD_pack]; simp (disch := omega)

theorem pack_bit23 : d.pack.getLsbD 23 = false := by rw [getLsbD_pack]; simp (disch := omega)

theorem pack_w : d.pack.extractLsb' 24 3 = d.w :=
  extractLsb'_pack_eq d _ fun i hi => by rw [getLsbD_pack]; simp (disch := omega)

theorem pack_bits27to31 : d.pack.extractLsb' 27 5 = 0 :=
  extractLsb'_pack_eq d _ fun i hi => by rw [getLsbD_pack]; simp (disch := omega)

theorem pack_code : d.pack.extractLsb' 32 16 = d.code :=
  extractLsb'_pack_eq d _ fun i hi => by rw [getLsbD_pack]; simp (disch := omega)

theorem pack_seq : d.pack.extractLsb' 48 16 = d.seq :=
  extractLsb'_pack_eq d _ fun i hi => by rw [getLsbD_pack]; simp (disch := omega)

end Pack

/-! ### Reading a descriptor -/

theorem Status.ofBits_bits (st : Status) : Status.ofBits st.bits = some st := by cases st <;> rfl

theorem XStatus.ofBits_bits (x : XStatus) : XStatus.ofBits x.bits = some x := by cases x <;> rfl

theorem unpack_pack (d : Desc) : Desc.unpack d.pack = some d := by
  simp only [Desc.unpack, pack_status, pack_hdrValid, pack_isData, pack_type, pack_seqValid, pack_declLen, pack_xStatus,
    pack_bit23, pack_w, pack_bits27to31, pack_code, pack_seq, Status.ofBits_bits, XStatus.ofBits_bits]
  rfl

/-- Settles O12: each field of the packed value is the field that was packed. -/
theorem unpackReadsBackPack : Obligations.UnpackReadsBackPack := unpack_pack

/-- The encodings R71 reserves in a descriptor. -/
def HasReserved (v : Dword) : Prop :=
  v.extractLsb' 0 2 = 3 ∨ v.extractLsb' 21 2 = 3 ∨ v.getLsbD 23 = true ∨ v.extractLsb' 27 5 ≠ 0

theorem Status.ofBits_eq_none_iff : ∀ b : BitVec 2, Status.ofBits b = Option.none ↔ b = 3 := by decide

theorem XStatus.ofBits_eq_none_iff : ∀ b : BitVec 2, XStatus.ofBits b = Option.none ↔ b = 3 := by decide

theorem unpack_eq_none_iff (v : Dword) : Desc.unpack v = none ↔ HasReserved v := by
  unfold Desc.unpack HasReserved
  rw [← Status.ofBits_eq_none_iff, ← XStatus.ofBits_eq_none_iff]
  split
  next hbits =>
    have hset : v.getLsbD 23 = true ∨ v.extractLsb' 27 5 ≠ 0 := by simpa using hbits
    exact iff_of_true rfl (.inr (.inr hset))
  next hbits =>
    have hclear : v.getLsbD 23 = true ∨ v.extractLsb' 27 5 ≠ 0 ↔ False := by simpa using hbits
    rw [hclear, or_false]
    cases Status.ofBits (v.extractLsb' 0 2) <;> cases XStatus.ofBits (v.extractLsb' 21 2) <;> simp

/-! ### Reading a beat -/

theorem BeatKind.ofBits_eq_none_iff : ∀ b : BitVec 2, BeatKind.ofBits b = none ↔ b = 3 := by decide

theorem BeatKind.ofBits_eq_desc_iff : ∀ b : BitVec 2, BeatKind.ofBits b = some .desc ↔ b = 0 := by decide

theorem ofSignals_eq_none_iff (kind : BitVec 2) (data : Dword) (nbytes : BitVec 3) (last : Bool) :
    Beat.ofSignals kind data nbytes last = none ↔ kind = 3 ∨ (kind = 0 ∧ HasReserved data) := by
  rw [← BeatKind.ofBits_eq_none_iff, ← BeatKind.ofBits_eq_desc_iff, ← unpack_eq_none_iff]
  unfold Beat.ofSignals
  split <;> simp_all

/-- A beat with no reserved encoding is not refused, and what is read is the beat itself. -/
theorem ofSignals_of_beat (b : Beat) (h : b.kind = .desc → ¬ HasReserved b.data) :
    Beat.ofSignals b.kind.bits b.data b.nbytes b.last = some b := by
  have hread : Beat.ofSignals b.kind.bits b.data b.nbytes b.last ≠ none := by
    rw [Ne, ofSignals_eq_none_iff, ← BeatKind.ofBits_eq_none_iff, ← BeatKind.ofBits_eq_desc_iff]
    simpa using h
  obtain ⟨c, hc⟩ := Option.ne_none_iff_exists'.mp hread
  obtain ⟨hkind, hdata, hnbytes, hlast⟩ := Beat.ofSignals_eq_some hc
  rw [BeatKind.ofBits_bits, Option.some.injEq] at hkind
  rw [hc]
  cases b
  cases c
  simp_all

/-- Settles O13, for a descriptor, for a beat that is refused and for a beat that is read. -/
theorem unpackRefusesReservedExactly : Obligations.UnpackRefusesReservedExactly :=
  ⟨unpack_eq_none_iff, ofSignals_eq_none_iff, ofSignals_of_beat⟩

end Sys2Proof.Machine

/-! The reference encoder (spec/30_encoding.md R75 to R80): its frames, when it refuses (O19), the length they declare
(O18), and what the block makes of them (O20). -/

namespace Sys2Proof.Machine

/-! ### Decoding a frame by its fields -/

/-- `Decode` on a frame that has all its fixed bytes, by the frame's fields (R100). -/
theorem decodeFrame_fields (P : Params) (t : BitVec 3) (len : BitVec 13) (field : Half) (body : List Byte) :
    decodeFrame P (frameBytes t len (.fields field body)) =
      if isDataType t then dataRecord P (headerWord t len) field body
      else controlRecord P (headerWord t len) field body := by
  simp [frameBytes, Tail.bytes, decodeFrame]

theorem controlRecord_declLen (P : Params) (word code : Half) (body : List Byte) :
    (controlRecord P word code body).declLen = declaredLength word := by
  unfold controlRecord
  split <;> rfl

theorem decodeFrame_fields_declLen (P : Params) (t : BitVec 3) (len : BitVec 13) (field : Half) (body : List Byte) :
    (decodeFrame P (frameBytes t len (.fields field body))).declLen = len := by
  rw [decodeFrame_fields]
  split
  · exact declaredLength_headerWord t len
  · rw [controlRecord_declLen, declaredLength_headerWord]

/-! ### What the encoder answers -/

theorem toNat_totalLength {payload : List Byte} (h : payload.length ≤ 8187) :
    (BitVec.ofNat 13 (4 + payload.length)).toNat = 4 + payload.length :=
  Nat.mod_eq_of_lt (by omega)

/-- Up to 8191 the length field holds the total length (R75). -/
theorem encodeHeader_eq (t : BitVec 3) (total : Nat) (h : total ≤ 8191) :
    encodeHeader t total = [loByte (headerWord t (.ofNat 13 total)), hiByte (headerWord t (.ofNat 13 total))] := by
  have hlen : (BitVec.ofNat 13 total).setWidth 16 = BitVec.ofNat 16 total := by
    apply BitVec.eq_of_toNat_eq
    simp
    omega
  rw [encodeHeader, headerWord, hlen]

/-- R76, R77: a payload that fits gives the frame with the given type and field that declares its own length. -/
theorem encodeItem_ok (t : BitVec 3) (field : Half) (payload : List Byte) (h : payload.length ≤ 8187) :
    encodeItem t field payload = .ok (frameBytes t (.ofNat 13 (4 + payload.length)) (.fields field payload)) := by
  have hfits : 4 + payload.length ≤ 8191 := by omega
  rw [encodeItem, if_neg hfits.not_gt, encodeHeader_eq t _ hfits]
  rfl

/-- R78: a payload that does not fit gives E_LENGTH. -/
theorem encodeItem_error (t : BitVec 3) (field : Half) (payload : List Byte) (h : 8188 ≤ payload.length) :
    encodeItem t field payload = .error .lengthExceeded := if_pos (by omega)

theorem encodeItem_eq_error_iff (t : BitVec 3) (field : Half) (payload : List Byte) :
    encodeItem t field payload = .error .lengthExceeded ↔ 8188 ≤ payload.length := by
  refine ⟨fun herror => ?_, encodeItem_error t field payload⟩
  by_contra hfits
  rw [encodeItem_ok t field payload (by omega)] at herror
  cases herror

/-- No frame is returned but for a payload that fits. -/
theorem encodeItem_eq_ok {t : BitVec 3} {field : Half} {payload G : List Byte} (h : encodeItem t field payload = .ok G) :
    payload.length ≤ 8187 ∧ G = frameBytes t (.ofNat 13 (4 + payload.length)) (.fields field payload) := by
  by_cases hfits : payload.length ≤ 8187
  · rw [encodeItem_ok t field payload hfits] at h
    cases h
    exact ⟨hfits, rfl⟩
  · rw [encodeItem_error t field payload (by omega)] at h
    cases h

/-- Both encoders answer as `encodeItem_ok` says. -/
theorem eq_frameBytes_of_encoded {t : BitVec 3} {field : Half} {payload G : List Byte}
    (h : encodeControl t field payload = .ok G ∨ encodeData t field payload = .ok G) :
    payload.length ≤ 8187 ∧ G = frameBytes t (.ofNat 13 (4 + payload.length)) (.fields field payload) :=
  h.elim encodeItem_eq_ok encodeItem_eq_ok

/-! ### The declared length -/

theorem frameBytes_fields_length (t : BitVec 3) (len : BitVec 13) (field : Half) (body : List Byte) :
    (frameBytes t len (.fields field body)).length = 4 + body.length := by
  simp [frameBytes, Tail.bytes]
  omega

/-- R12, R41: the first two bytes of a frame, read as one number, are its header word. -/
theorem memRead_header (t : BitVec 3) (len : BitVec 13) (tail : Tail) :
    memRead (frameBytes t len tail) 0 2 = (headerWord t len).toNat := by
  have hword := toNat_le16 (loByte (headerWord t len)) (hiByte (headerWord t len))
  rw [le16_loByte_hiByte] at hword
  simp [memRead, frameBytes, leValue, hword]

/-- Settles O18: the encoder's frame declares the length it has, and the block reports what is declared. -/
theorem encodedLengthIsDeclaredLength : Obligations.EncodedLengthIsDeclaredLength := by
  intro P t field payload G hG
  obtain ⟨hfits, rfl⟩ := eq_frameBytes_of_encoded hG
  rw [frameBytes_fields_length, memRead_header, BitVec.ofNat_toNat, BitVec.setWidth_eq, declaredLength_headerWord,
    decodeFrame_fields_declLen]
  exact ⟨rfl, toNat_totalLength hfits, toNat_totalLength hfits⟩

/-! ### When the encoder refuses -/

/-- R150, R176: every operation of the block answers a next state. -/
theorem exec_answers_next (i : Instr) (s : State) : ∃ s', exec i s = .next s' := by
  cases i <;> exact ⟨_, rfl⟩

theorem memRead_header_mod (t : BitVec 3) (len : BitVec 13) (tail : Tail) :
    memRead (frameBytes t len tail) 0 2 % 8192 = len.toNat := by
  have hlen := toNat_declaredLength (headerWord t len)
  rw [declaredLength_headerWord] at hlen
  rw [memRead_header, hlen]
  rfl

/-- Settles O19: the encoder's answer goes by the payload's length alone, and no operation answers with a stop. -/
theorem encoderRefusesLongPayloads : Obligations.EncoderRefusesLongPayloads := by
  refine ⟨fun t field payload => ⟨encodeItem_eq_error_iff t field payload, encodeItem_eq_error_iff t field payload, ?_, ?_⟩,
    exec_answers_next⟩
  · intro hfits
    exact ⟨⟨_, encodeItem_ok t field payload hfits⟩, ⟨_, encodeItem_ok t field payload hfits⟩⟩
  · intro hlargest G hG
    obtain ⟨-, rfl⟩ := eq_frameBytes_of_encoded hG
    rw [frameBytes_fields_length, memRead_header_mod, hlargest]
    exact ⟨rfl, rfl⟩

/-! ### The round trip -/

theorem isDataType_iff : ∀ t : BitVec 3, isDataType t = true ↔ 4 ≤ t.toNat := by decide

/-- `Out` of a control frame with a known code (R150, R153). -/
theorem frameOut_known (P : Params) (d : Word) (t : BitVec 3) (len : BitVec 13) (code : Half) (body : List Byte)
    (ht : isDataType t = false) (hcode : P.knows code = true) :
    frameOut P d (frameBytes t len (.fields code body)) =
      frameBeatsOut ⟨.ok, true, false, t, false, len, .none, 0, code, 0⟩ (body.map (bodyBeat · false)) := by
  simp [frameOut, decodeFrame_fields, ht, controlRecord_known, hcode, headerRecord, noHeaderRecord, DecodeRecord.desc,
    frameBeatsOut]

/-- `Out` of a data frame (R150, R154). -/
theorem frameOut_data (P : Params) (d : Word) (t : BitVec 3) (len : BitVec 13) (seq : Half) (body : List Byte)
    (ht : isDataType t = true) :
    frameOut P d (frameBytes t len (.fields seq body)) =
      frameBeatsOut
        ⟨.ok, true, true, t, true, len, (extract P.sampleSigned d body).1, (extract P.sampleSigned d body).2.1, P.codeNone,
          seq⟩
        ((extract P.sampleSigned d body).2.2.map (sampleBeat · false)) := by
  simp [frameOut, decodeFrame_fields, ht, dataRecord, headerRecord, noHeaderRecord, DecodeRecord.desc, frameBeatsOut]

/-- Settles O20: the encoder's frame keeps the item's fields apart, and `Out` goes by those fields. -/
theorem encodedItemsRoundTrip : Obligations.EncodedItemsRoundTrip := by
  intro P d t field payload hfits
  constructor
  · intro ht hcode
    have hcontrol : isDataType t = false := by rw [← Bool.not_eq_true, isDataType_iff]; omega
    exact ⟨_, encodeItem_ok t field payload hfits, frameOut_known P d t _ field payload hcontrol hcode⟩
  · intro ht
    exact ⟨_, encodeItem_ok t field payload hfits, frameOut_data P d t _ field payload ((isDataType_iff t).mpr ht)⟩

end Sys2Proof.Machine

/-! One frame turn at a frame boundary: it takes the whole frame off port F (R151) and runs it, a table word (O53) or a
FRAME line (O52), as `Out` says (R150, R101). -/

namespace Sys2Proof.Machine

/-! ### What the decoder's answers run -/

/-- A decoded header runs the frame step of its category (R92, R105 to R112). -/
theorem exec_decodeHeader (word : Half) (tail : Tail) (s : State) :
    exec (decodeHeader word tail) s = .next
      (if isDataType (msgType word) then
        dataFrame Config.params ((msgType word).setWidth 2) (declaredLength word) tail s
      else controlFrame Config.params (msgType word) (declaredLength word) tail s) := by
  unfold decodeHeader
  generalize msgType word = t
  fin_cases t <;> rfl

/-! ### A whole frame at a frame boundary -/

/-- The frame step of R150: from `s` to `t` the beats of `F` under CFG join OQ, and the block is at a frame boundary again
with CFG and the ports as they were. -/
structure FrameRun (P : Params) (F : List Byte) (s t : State) : Prop where
  oq : t.oq = s.oq ++ frameOut P s.cfg F
  cfg : t.cfg = s.cfg
  phase : t.phase = .idle
  fIn : t.fIn = s.fIn
  turns : t.turns = s.turns

section FrameRuns

variable (P : Params) (s : State)

theorem frameOut_frameBytes_short (d : Word) (t : BitVec 3) (len : BitVec 13) (tail : Tail) (h : tail.bytes.length < 2) :
    frameOut P d (frameBytes t len tail) = [descBeat ((headerRecord (headerWord t len)).desc .none 0) true] := by
  rw [frameBytes, frameOut_short P d _ _ _ h, le16_loByte_hiByte]

/-- R101: a frame that lacks one of its fixed bytes. -/
theorem shortFrame_frameRun (t : BitVec 3) (len : BitVec 13) (tail : Tail) (h : tail.bytes.length < 2) :
    FrameRun P (frameBytes t len tail) s (shortFrame (headerWord t len) (latchFrame (headerWord t len) tail s)) where
  oq := by rw [frameOut_frameBytes_short P s.cfg t len tail h]; rfl
  cfg := rfl
  phase := rfl
  fIn := rfl
  turns := rfl

/-- R153, R155: a control frame goes by the code check. -/
theorem controlItem_frameRun (t : BitVec 3) (len : BitVec 13) (code : Half) (body : List Byte)
    (ht : isDataType t = false) :
    FrameRun P (frameBytes t len (.fields code body)) s
      (controlItem P (headerWord t len) code body (latchFrame (headerWord t len) (.fields code body) s)) := by
  cases hcode : P.knows code with
  | true =>
    have hout := frameOut_known P s.cfg t len code body ht hcode
    constructor <;>
      simp [controlItem, hcode, controlRecord_known, headerRecord, noHeaderRecord, DecodeRecord.desc, hout, ht]
  | false =>
    constructor <;>
      simp [controlItem, hcode, controlRecord_unknown, headerRecord, noHeaderRecord, DecodeRecord.desc, ht, frameOut,
        decodeFrame_fields, descBeat]

/-- R154, R140: a data frame goes by the depth check. -/
theorem extractItem_frameRun (sub : BitVec 2) (len : BitVec 13) (seq : Half) (body : List Byte) :
    FrameRun P (frameBytes (dataType sub) len (.fields seq body)) s
      (extractItem P s.cfg ⟨sub, len, seq, body⟩ (latchFrame (headerWord (dataType sub) len) (.fields seq body) s)) := by
  have hout := frameOut_data P s.cfg (dataType sub) len seq body (isDataType_dataType sub)
  cases hdepth : depthInRange s.cfg with
  | true =>
    rw [extractItem_inRange _ _ _ _ hdepth]
    constructor <;>
      simp [sampleItem, hout, extract, hdepth, itemDesc, dataRecord, headerRecord, noHeaderRecord, DecodeRecord.desc]
  | false =>
    rw [extractItem_outOfRange _ _ _ _ hdepth]
    constructor <;>
      simp [depthErrorItem, hout, extract, hdepth, itemDesc, dataRecord, headerRecord, noHeaderRecord,
        DecodeRecord.desc, frameBeatsOut, descBeat]

theorem controlFrame_frameRun (t : BitVec 3) (len : BitVec 13) (tail : Tail) (ht : isDataType t = false)
    (hs : s.phase = .idle) : FrameRun P (frameBytes t len tail) s (controlFrame P t len tail s) := by
  rw [controlFrame_idle P t len tail s hs]
  cases tail with
  | empty => exact shortFrame_frameRun P s t len .empty (by decide)
  | part lo => exact shortFrame_frameRun P s t len (.part lo) (Nat.one_lt_two)
  | fields code body => exact controlItem_frameRun P s t len code body ht

theorem dataFrame_frameRun (sub : BitVec 2) (len : BitVec 13) (tail : Tail) (hs : s.phase = .idle) :
    FrameRun P (frameBytes (dataType sub) len tail) s (dataFrame P sub len tail s) := by
  rw [dataFrame_idle P sub len tail s hs]
  cases tail with
  | empty => exact shortFrame_frameRun P s (dataType sub) len .empty (by decide)
  | part lo => exact shortFrame_frameRun P s (dataType sub) len (.part lo) Nat.one_lt_two
  | fields seq body => exact extractItem_frameRun P s sub len seq body

/-- R101, log 9: a frame of one byte is reported SHORT by the byte-serial machine. -/
theorem accept_oneByte_frameRun (b : Byte) (hs : s.phase = .idle) : FrameRun P [b] s (accept P b true s) := by
  rw [accept_of_idle P b true s hs]
  exact ⟨rfl, rfl, rfl, rfl, rfl⟩

end FrameRuns

/-- R150: a frame of any length but 0 is run as `Out` says. -/
theorem runTransfer_frame_frameRun (F : List Byte) (s : State) (hF : F ≠ []) (hs : s.phase = .idle) :
    ∃ t, runTransfer (.frame F) s = .next t ∧ FrameRun Config.params F s t := by
  match F, hF with
  | [b], _ => exact ⟨_, rfl, accept_oneByte_frameRun Config.params s b hs⟩
  | lo :: hi :: rest, _ =>
    refine ⟨_, (runTransfer_ok _ s _ (decode_frame_cons lo hi rest)).trans (exec_decodeHeader _ _ s), ?_⟩
    rw [← frameBytes_of_bytes lo hi rest]
    split
    next ht =>
      have hrun := dataFrame_frameRun Config.params s ((msgType (le16 lo hi)).setWidth 2) (declaredLength (le16 lo hi))
        (tailOf rest) hs
      rwa [dataType_of_isDataType _ ht] at hrun
    next ht => exact controlFrame_frameRun Config.params s _ _ _ (by simpa using ht) hs

/-! ### The frame turn -/

/-- R151: the head of port F is cut after the first `f_last`. -/
theorem splitFrame_frameBeats (F : List Byte) (rest : List FBeat) (hF : F ≠ []) :
    splitFrame (frameBeats F ++ rest) = some (F, rest) := by
  induction F with
  | nil => exact absurd rfl hF
  | cons b bs ih =>
    cases bs with
    | nil => rfl
    | cons b' bs' => simp [frameBeats, splitFrame, ih]

theorem fetchBytes_idle (F : List Byte) (s : State) (hs : s.phase = .idle) : fetchBytes F s = .op (.frame F) s := by
  simp [fetchBytes, hs]

theorem fetchFrame_of_oq_nil (s : State) (F : List Byte) (rest : List FBeat) (hsplit : splitFrame s.fIn = some (F, rest))
    (hoq : s.oq = []) : fetchFrame s = fetchBytes F { s with fIn := rest } := by
  simp only [fetchFrame, hsplit, roomOnO_of_empty s hoq]

/-- R150, R151: at a frame boundary with port O free, a frame turn fetches the frame at the head of port F. -/
theorem fetch_frameTurn (s : State) (ts : List Turn) (F : List Byte) (rest : List FBeat) (hF : F ≠ [])
    (hturns : s.turns = .frame :: ts) (hfIn : s.fIn = frameBeats F ++ rest) (hs : s.phase = .idle) (hoq : s.oq = []) :
    fetch s = .op (.frame F) { s with turns := ts, fIn := rest } := by
  have hsplit : splitFrame s.fIn = some (F, rest) := by rw [hfIn, splitFrame_frameBeats F rest hF]
  rw [fetch_cons s .frame ts hturns]
  exact (fetchFrame_of_oq_nil { s with turns := ts } F rest hsplit hoq).trans (fetchBytes_idle F _ hs)

/-- Settles O52: the turn takes the line's frame off port F, and the frame is run as `Out` says. -/
theorem frameLineOutputsFrameOut : Obligations.FrameLineOutputsFrameOut := by
  intro s F hF hturns hfIn hs hoq
  have hfetch : fetch ((Stimulus.frame F).offer s) = .op (.frame F) { s with turns := [], fIn := [] } :=
    fetch_frameTurn _ [] F [] hF (by simp [Stimulus.offer, hturns]) (by simp [Stimulus.offer, hfIn]) hs hoq
  obtain ⟨t, hrun, ht⟩ := runTransfer_frame_frameRun F { s with turns := [], fIn := [] } hF hs
  refine ⟨t, (step_of_fetch_op _ _ _ hfetch).trans hrun, ?_, ht.fIn, ht.turns, ht.cfg, ht.phase⟩
  simpa [hoq] using ht.oq

/-- A table word's frame has a header, so it is an operation of the table. -/
theorem decode_tableFrame (nbits w : Nat) : ∃ i, decode (.frame (tableFrame nbits w)) = .ok i := by
  have hlen := four_le_tableFrame_length nbits w
  match tableFrame nbits w, hlen with
  | lo :: hi :: rest, _ => exact ⟨_, decode_frame_cons lo hi rest⟩

/-- Settles O53: the word's frame is fetched whole, and it decodes. -/
theorem placedTableWordIsRun : Obligations.PlacedTableWordIsRun := by
  intro s nbits w
  obtain ⟨i, hi⟩ := decode_tableFrame nbits w
  have hF : tableFrame nbits w ≠ [] := List.ne_nil_of_length_pos (by have := four_le_tableFrame_length nbits w; omega)
  have hfetch := fetch_frameTurn (s.withFetchWord nbits w) s.turns (tableFrame nbits w) s.fIn hF rfl rfl rfl rfl
  refine ⟨i, by rw [decodeTableWord, hi]; rfl, ?_⟩
  rw [step_of_fetch_op _ _ _ hfetch, runTransfer_ok _ _ i hi]
  rfl

end Sys2Proof.Machine

/-! The invariant of the block (O59). Its part about OQ says that a reader who knows whether a frame still owes its final
beat can follow the beats; a step that emits has to go on where the reader stands. The rest is about the in-flight
registers, phase by phase. -/

namespace Sys2Proof.Machine

/-! ### Runs of beats -/

/-- The beats `bs`, read one after the other: `owes` and `owes'` say whether a frame still owes its final beat before and
after them. Where none does, the next beat is a descriptor; inside a frame it is payload. -/
inductive BeatRun : (owes owes' : Bool) → (bs : List Beat) → Prop where
  | nil (owes : Bool) : BeatRun owes owes []
  | cons {owes owes' : Bool} {b : Beat} {bs : List Beat} (hlegal : b.legal = true)
      (hopens : b.kind = .desc ↔ owes = false) (hrest : BeatRun (!b.last) owes' bs) : BeatRun owes owes' (b :: bs)

theorem BeatRun.append {o₁ o₂ o₃ : Bool} {as bs : List Beat} (has : BeatRun o₁ o₂ as) (hbs : BeatRun o₂ o₃ bs) :
    BeatRun o₁ o₃ (as ++ bs) := by
  induction has with
  | nil owes => exact hbs
  | cons hlegal hopens _ ih => exact .cons hlegal hopens (ih hbs)

theorem BeatRun.single {owes owes' : Bool} {b : Beat} (hlegal : b.legal = true) (hopens : b.kind = .desc ↔ owes = false)
    (hlast : b.last = !owes') : BeatRun owes owes' [b] :=
  .cons hlegal hopens (by rw [hlast, Bool.not_not]; exact .nil owes')

theorem BeatRun.legal {owes owes' : Bool} {bs : List Beat} (h : BeatRun owes owes' bs) : bs.all Beat.legal = true := by
  induction h with
  | nil owes => rfl
  | cons hlegal _ _ ih => simp [hlegal, ih]

theorem BeatRun.framed {owes owes' : Bool} {bs : List Beat} (h : BeatRun owes owes' bs) : framed bs = true := by
  induction h with
  | nil owes => rfl
  | cons hlegal hopens hrest ih =>
    cases hrest with
    | nil owes => rfl
    | cons hlegal' hopens' hrest' =>
      rw [Machine.framed, ih, Bool.and_true, beq_iff_eq, Bool.eq_iff_iff, beq_iff_eq]
      simpa using hopens'.symm

theorem BeatRun.getLast {owes owes' : Bool} {bs : List Beat} (h : BeatRun owes owes' bs) :
    ∀ b, bs.getLast? = some b → b.last = !owes' := by
  induction h with
  | nil owes => simp
  | cons hlegal hopens hrest ih =>
    cases hrest with
    | nil owes => simp
    | cons hlegal' hopens' hrest' => simpa using ih

/-- Legal and framed beats can be read from some point on. -/
theorem exists_beatRun {owes' : Bool} {bs : List Beat} (hlegal : bs.all Beat.legal = true) (hframed : framed bs = true)
    (hlast : ∀ b, bs.getLast? = some b → b.last = !owes') : ∃ owes, BeatRun owes owes' bs := by
  induction bs with
  | nil => exact ⟨owes', .nil owes'⟩
  | cons b bs ih =>
    rw [List.all_cons, Bool.and_eq_true] at hlegal
    refine ⟨b.kind != .desc, ?_⟩
    cases bs with
    | nil => exact .single hlegal.1 (by simp) (hlast b rfl)
    | cons b' bs' =>
      simp only [framed, Bool.and_eq_true, beq_iff_eq] at hframed
      obtain ⟨o, hrun⟩ := ih hlegal.2 hframed.2 (by simpa using hlast)
      have ho : o = !b.last := by
        cases hrun with
        | cons _ hopens _ =>
          rw [hframed.1]
          cases o <;> simp_all
      exact .cons hlegal.1 (by simp) (ho ▸ hrun)

/-! ### The invariant by its parts -/

theorem lastMatchesPhase_iff (s : State) :
    lastMatchesPhase s = true ↔ ∀ b, s.oq.getLast? = some b → b.last = !s.phase.owesLast := by
  unfold lastMatchesPhase
  cases s.oq.getLast? <;> simp

theorem inv_iff (s : State) :
    s.Inv ↔ (∃ owes, BeatRun owes s.phase.owesLast s.oq) ∧ s.delivered.all Beat.legal = true ∧ inFlightOk s = true := by
  constructor
  · rintro ⟨⟨hoq, hdelivered⟩, ⟨hframed, hlast⟩, hregs⟩
    exact ⟨exists_beatRun hoq hframed ((lastMatchesPhase_iff s).mp hlast), hdelivered, hregs⟩
  · rintro ⟨⟨owes, hrun⟩, hdelivered, hregs⟩
    exact ⟨⟨hrun.legal, hdelivered⟩, ⟨hrun.framed, (lastMatchesPhase_iff s).mpr hrun.getLast⟩, hregs⟩

/-- A change that emits beats in keeping with both phases, and leaves sound registers, keeps the invariant. -/
theorem State.Inv.of_emits {s t : State} {bs : List Beat} (hs : s.Inv) (hoq : t.oq = s.oq ++ bs)
    (hrun : BeatRun s.phase.owesLast t.phase.owesLast bs) (hdelivered : t.delivered = s.delivered)
    (hregs : inFlightOk t = true) : t.Inv := by
  obtain ⟨⟨owes, holdRun⟩, hold, -⟩ := (inv_iff s).mp hs
  exact (inv_iff t).mpr ⟨⟨owes, hoq ▸ holdRun.append hrun⟩, hdelivered ▸ hold, hregs⟩

/-- The invariant does not speak of CFG, of what the ports are offered, or of the replies. -/
theorem State.Inv.ports {s : State} (hs : s.Inv) (cfg : Word) (fIn : List FBeat) (cIn : List CAccess) (turns : List Turn)
    (replies : List Word) (freeIx : Nat) :
    State.Inv { s with cfg := cfg, fIn := fIn, cIn := cIn, turns := turns, replies := replies, freeIx := freeIx } := hs

/-! ### The in-flight registers in each phase -/

section InFlight

variable {s : State}

theorem inFlightOk_idle (h : s.phase = .idle) : inFlightOk s = true ↔ (s.acc = 0 ∧ s.m = 0) ∧ s.idx = 0 := by
  simp [inFlightOk, h]

theorem inFlightOk_hdr1 (h : s.phase = .hdr1) : inFlightOk s = true ↔ (s.acc = 0 ∧ s.m = 0) ∧ s.idx = 1 := by
  simp [inFlightOk, h]

theorem inFlightOk_fld0 (h : s.phase = .fld0) :
    inFlightOk s = true ↔ (s.acc = 0 ∧ s.m = 0) ∧ s.idx = 2 ∧ s.hdrLo = loByte s.word := by
  simp [inFlightOk, h]

theorem inFlightOk_fld1 (h : s.phase = .fld1) :
    inFlightOk s = true ↔ (s.acc = 0 ∧ s.m = 0) ∧ s.idx = 3 ∧ s.hdrLo = loByte s.word := by
  simp [inFlightOk, h]

theorem inFlightOk_body (h : s.phase = .body) :
    inFlightOk s = true ↔
      (s.acc = 0 ∧ s.m = 0) ∧ (4 ≤ s.idx ∧ s.hdrLo = loByte s.word) ∧ isDataType (msgType s.word) = false := by
  simp [inFlightOk, h]

theorem inFlightOk_discard (h : s.phase = .discard) :
    inFlightOk s = true ↔
      (s.acc = 0 ∧ s.m = 0) ∧ (4 ≤ s.idx ∧ s.hdrLo = loByte s.word) ∧
        (isDataType (msgType s.word) = false ∨ depthInRange s.dLat = false) := by
  simp [inFlightOk, h]

theorem inFlightOk_samples (h : s.phase = .samples) :
    inFlightOk s = true ↔
      (4 ≤ s.idx ∧ s.hdrLo = loByte s.word) ∧ isDataType (msgType s.word) = true ∧
        (depthInRange s.dLat = true ∧ s.w = chunkWidth s.dLat) ∧
        s.m.toNat < s.w.toNat ∧ s.m.toNat = (s.idx - 4) % s.w.toNat ∧ s.acc.toNat < 256 ^ s.m.toNat := by
  simp [inFlightOk, h]
  tauto

/-- No sample is begun in a phase that owes no payload. -/
theorem sampleRegister_empty (hs : inFlightOk s = true) (hphase : s.phase.owesLast = false) : s.acc = 0 ∧ s.m = 0 := by
  cases h : s.phase with
  | idle => exact ((inFlightOk_idle h).mp hs).1
  | hdr1 => exact ((inFlightOk_hdr1 h).mp hs).1
  | fld0 => exact ((inFlightOk_fld0 h).mp hs).1
  | fld1 => exact ((inFlightOk_fld1 h).mp hs).1
  | discard => exact ((inFlightOk_discard h).mp hs).1
  | body => simp [h, Phase.owesLast] at hphase
  | samples => simp [h, Phase.owesLast] at hphase

end InFlight

/-! ### Legal beats -/

theorem descBeat_legal {d : Desc} (L : Bool) (h : d.coherent = true) : (descBeat d L).legal = true := by
  simp [descBeat, Beat.legal, unpack_pack, h]

theorem bodyBeat_legal (b : Byte) (L : Bool) : (bodyBeat b L).legal = true := by
  have hb := b.isLt
  simp [bodyBeat, Beat.legal]
  omega

/-- A sample with its byte count, as R134 and R135 bound them. -/
def SampleFits (v : Word × BitVec 3) : Prop := (1 ≤ v.2.toNat ∧ v.2.toNat ≤ 4) ∧ v.1.toNat < 256 ^ v.2.toNat

theorem sampleBeat_legal {v : Word × BitVec 3} (L : Bool) (h : SampleFits v) : (sampleBeat v L).legal = true := by
  obtain ⟨hbytes, hvalue⟩ := h
  have hv := v.1.isLt
  have hdata : (v.1.setWidth 64).toNat = v.1.toNat := by
    rw [BitVec.toNat_setWidth]
    exact Nat.mod_eq_of_lt (by omega)
  simp [sampleBeat, Beat.legal, hbytes, hdata, hvalue]

/-! ### Coherent descriptors -/

theorem noHeader_coherent : (noHeaderRecord.desc .none 0).coherent = true := by decide

theorem headerRecord_coherent (word : Half) : ((headerRecord word).desc .none 0).coherent = true := by
  simp [Desc.coherent, DecodeRecord.desc, headerRecord, noHeaderRecord]

theorem controlRecord_coherent (P : Params) (word code : Half) (body : List Byte) (h : isDataType (msgType word) = false) :
    ((controlRecord P word code body).desc .none 0).coherent = true := by
  unfold controlRecord
  split <;> simp [Desc.coherent, DecodeRecord.desc, headerRecord, noHeaderRecord, h]

theorem dataRecord_ok_coherent (P : Params) (word seq : Half) (body : List Byte) (w : BitVec 3)
    (h : isDataType (msgType word) = true) (hw : 1 ≤ w.toNat ∧ w.toNat ≤ 4) :
    ((dataRecord P word seq body).desc .ok w).coherent = true := by
  simp [Desc.coherent, DecodeRecord.desc, dataRecord, headerRecord, noHeaderRecord, h, hw]

theorem dataRecord_depthErr_coherent (P : Params) (word seq : Half) (body : List Byte)
    (h : isDataType (msgType word) = true) : ((dataRecord P word seq body).desc .depthErr 0).coherent = true := by
  simp [Desc.coherent, DecodeRecord.desc, dataRecord, headerRecord, noHeaderRecord, h]

/-- R132: an accepted depth gives a chunk of 1 to 4 bytes. -/
theorem chunkWidth_range {d : Word} (h : depthInRange d = true) :
    1 ≤ (chunkWidth d).toNat ∧ (chunkWidth d).toNat ≤ 4 := by
  simp only [depthInRange, Bool.and_eq_true, bne_iff_ne, decide_eq_true_eq] at h
  simp only [chunkWidth, BitVec.toNat_ofNat, Nat.shiftRight_eq_div_pow]
  omega

/-! ### One byte -/

/-- What a byte accepted in state `s` does when all is well: its beat goes on from the phase of `s` to the new phase, whose
registers are sound. -/
structure ByteSound (s : State) (r : State × Option Beat) : Prop where
  oq : r.1.oq = s.oq
  run : BeatRun s.phase.owesLast r.1.phase.owesLast r.2.toList
  regs : inFlightOk r.1 = true

theorem ByteSound.silent {s t : State} (hoq : t.oq = s.oq) (howes : t.phase.owesLast = s.phase.owesLast)
    (hregs : inFlightOk t = true) : ByteSound s (t, none) :=
  ⟨hoq, by rw [howes]; exact .nil _, hregs⟩

theorem ByteSound.emitting {s t : State} {b : Beat} (hoq : t.oq = s.oq) (hlegal : b.legal = true)
    (hopens : b.kind = .desc ↔ s.phase.owesLast = false) (hlast : b.last = !t.phase.owesLast)
    (hregs : inFlightOk t = true) : ByteSound s (t, some b) :=
  ⟨hoq, .single hlegal hopens hlast, hregs⟩

/-- An error's descriptor is its frame's only beat, and no payload is owed after it. -/
theorem errorEntry_sound {s u : State} {d : Desc} (L : Bool) (hoq : u.oq = s.oq) (howes : s.phase.owesLast = false)
    (hd : d.coherent = true) (hregs : inFlightOk (errorEntry d L u).1 = true) : ByteSound s (errorEntry d L u) :=
  .emitting hoq (descBeat_legal true hd) (by simp [descBeat, howes]) (by cases L <;> rfl) hregs

section Byte

variable (b : Byte) (L : Bool) {s : State}

theorem serialIdle_sound (h : s.phase = .idle) (hs : inFlightOk s = true) :
    ByteSound s (serialIdle b L (countByte L s)) := by
  obtain ⟨hsample, hidx⟩ := (inFlightOk_idle h).mp hs
  have howes : s.phase.owesLast = false := by rw [h]; rfl
  cases L with
  | true => exact errorEntry_sound true rfl howes noHeader_coherent ((inFlightOk_idle rfl).mpr ⟨hsample, rfl⟩)
  | false => exact .silent rfl howes.symm ((inFlightOk_hdr1 rfl).mpr ⟨hsample, congrArg (· + 1) hidx⟩)

theorem serialHdr1_sound (h : s.phase = .hdr1) (hs : inFlightOk s = true) :
    ByteSound s (serialHdr1 b L (countByte L s)) := by
  obtain ⟨hsample, hidx⟩ := (inFlightOk_hdr1 h).mp hs
  have howes : s.phase.owesLast = false := by rw [h]; rfl
  cases L with
  | true => exact errorEntry_sound true rfl howes (headerRecord_coherent _) ((inFlightOk_idle rfl).mpr ⟨hsample, rfl⟩)
  | false =>
    exact .silent rfl howes.symm
      ((inFlightOk_fld0 rfl).mpr ⟨hsample, congrArg (· + 1) hidx, (loByte_le16 s.hdrLo b).symm⟩)

theorem serialFld0_sound (h : s.phase = .fld0) (hs : inFlightOk s = true) :
    ByteSound s (serialFld0 b L (countByte L s)) := by
  obtain ⟨hsample, hidx, hhdr⟩ := (inFlightOk_fld0 h).mp hs
  have howes : s.phase.owesLast = false := by rw [h]; rfl
  cases L with
  | true => exact errorEntry_sound true rfl howes (headerRecord_coherent _) ((inFlightOk_idle rfl).mpr ⟨hsample, rfl⟩)
  | false => exact .silent rfl howes.symm ((inFlightOk_fld1 rfl).mpr ⟨hsample, congrArg (· + 1) hidx, hhdr⟩)

/-- An error found at the last fixed byte: the registers fit IDLE, or DISCARD where more of the frame is to come. -/
theorem errorEntry_fld1_sound (d : Desc) (h : s.phase = .fld1) (hs : inFlightOk s = true) (hd : d.coherent = true)
    (hcause : isDataType (msgType s.word) = false ∨ depthInRange s.dLat = false) :
    ByteSound s (errorEntry d L (countByte L s)) := by
  obtain ⟨hsample, hidx, hhdr⟩ := (inFlightOk_fld1 h).mp hs
  refine errorEntry_sound L rfl (by rw [h]; rfl) hd ?_
  cases L with
  | true => exact (inFlightOk_idle rfl).mpr ⟨hsample, rfl⟩
  | false => exact (inFlightOk_discard rfl).mpr ⟨hsample, ⟨by simp [hidx], hhdr⟩, hcause⟩

theorem serialControl_sound (P : Params) (code : Half) (h : s.phase = .fld1) (hs : inFlightOk s = true)
    (htype : isDataType (msgType s.word) = false) : ByteSound s (serialControl P code L (countByte L s)) := by
  have hd := controlRecord_coherent P s.word code [] htype
  obtain ⟨hsample, hidx, hhdr⟩ := (inFlightOk_fld1 h).mp hs
  simp only [serialControl]
  split
  · refine .emitting rfl (descBeat_legal L hd) (by simp [descBeat, h, Phase.owesLast]) (by cases L <;> rfl) ?_
    cases L with
    | true => exact (inFlightOk_idle rfl).mpr ⟨hsample, rfl⟩
    | false => exact (inFlightOk_body rfl).mpr ⟨hsample, ⟨by simp [hidx], hhdr⟩, htype⟩
  · exact errorEntry_fld1_sound L _ h hs hd (.inl htype)

theorem serialData_sound (P : Params) (seq : Half) (h : s.phase = .fld1) (hs : inFlightOk s = true)
    (htype : isDataType (msgType s.word) = true) : ByteSound s (serialData P seq L (countByte L s)) := by
  obtain ⟨-, hidx, hhdr⟩ := (inFlightOk_fld1 h).mp hs
  simp only [serialData]
  split
  next hdepth =>
    have hw := chunkWidth_range hdepth
    have hd := dataRecord_ok_coherent P s.word seq [] (chunkWidth s.dLat) htype hw
    refine .emitting rfl (descBeat_legal L hd) (by simp [descBeat, h, Phase.owesLast]) (by cases L <;> rfl) ?_
    cases L with
    | true => exact (inFlightOk_idle rfl).mpr ⟨⟨rfl, rfl⟩, rfl⟩
    | false =>
      refine (inFlightOk_samples rfl).mpr ⟨⟨by simp [hidx], hhdr⟩, htype, ⟨hdepth, rfl⟩, hw.1, ?_, Nat.one_pos⟩
      simp [hidx]
  next hdepth =>
    exact errorEntry_fld1_sound L _ h hs (dataRecord_depthErr_coherent P _ seq [] htype) (.inr (by simpa using hdepth))

theorem serialFld1_sound (P : Params) (h : s.phase = .fld1) (hs : inFlightOk s = true) :
    ByteSound s (serialFld1 P b L (countByte L s)) := by
  simp only [serialFld1]
  split
  next htype => exact serialData_sound L P _ h hs htype
  next htype => exact serialControl_sound L P _ h hs (by simpa using htype)

theorem serialBody_sound (h : s.phase = .body) (hs : inFlightOk s = true) :
    ByteSound s (serialBody b L (countByte L s)) := by
  obtain ⟨hsample, ⟨hidx, hhdr⟩, htype⟩ := (inFlightOk_body h).mp hs
  refine .emitting rfl (bodyBeat_legal b L) (by simp [bodyBeat, h, Phase.owesLast]) (by cases L <;> rfl) ?_
  cases L with
  | true => exact (inFlightOk_idle rfl).mpr ⟨hsample, rfl⟩
  | false => exact (inFlightOk_body rfl).mpr ⟨hsample, ⟨Nat.le_succ_of_le hidx, hhdr⟩, htype⟩

theorem serialDiscard_sound (h : s.phase = .discard) (hs : inFlightOk s = true) :
    ByteSound s (serialDiscard L (countByte L s)) := by
  obtain ⟨hsample, ⟨hidx, hhdr⟩, hcause⟩ := (inFlightOk_discard h).mp hs
  refine .silent rfl (by rw [h]; cases L <;> rfl) ?_
  cases L with
  | true => exact (inFlightOk_idle rfl).mpr ⟨hsample, rfl⟩
  | false => exact (inFlightOk_discard rfl).mpr ⟨hsample, ⟨Nat.le_succ_of_le hidx, hhdr⟩, hcause⟩

/-- R160: one more byte above the `m` bytes of the sample register. -/
theorem accumulate_lt (acc : Word) (m : Nat) (hacc : acc.toNat < 256 ^ m) :
    (acc ||| (b.setWidth 32 <<< (8 * m))).toNat < 256 ^ (m + 1) := by
  have hpow : 2 ^ (8 * (m + 1)) = 256 ^ (m + 1) := by rw [pow_mul]; norm_num
  have hlow : acc.toNat < 2 ^ (8 * (m + 1)) := by
    rw [hpow]
    exact hacc.trans (Nat.pow_lt_pow_right (by decide) (Nat.lt_succ_self m))
  have hhigh : (b.setWidth 32 <<< (8 * m)).toNat < 2 ^ (8 * (m + 1)) := by
    rw [BitVec.toNat_shiftLeft, BitVec.toNat_setWidth_of_le (by decide), Nat.shiftLeft_eq]
    calc b.toNat * 2 ^ (8 * m) % 2 ^ 32 ≤ b.toNat * 2 ^ (8 * m) := Nat.mod_le _ _
      _ < 2 ^ 8 * 2 ^ (8 * m) := Nat.mul_lt_mul_of_pos_right b.isLt (Nat.two_pow_pos _)
      _ = 2 ^ (8 * (m + 1)) := by rw [← pow_add]; congr 1; omega
  rw [BitVec.toNat_or, ← hpow]
  exact Nat.or_lt_two_pow hlow hhigh

/-- The byte count of the sample register after one more byte, which the chunk width bounds. -/
theorem toNat_m_add_one {m w : BitVec 3} (hm : m.toNat < w.toNat) : (m + 1).toNat = m.toNat + 1 := by
  have hw := w.isLt
  rw [BitVec.toNat_add]
  exact Nat.mod_eq_of_lt (by simp; omega)

theorem serialSamples_sound (h : s.phase = .samples) (hs : inFlightOk s = true) :
    ByteSound s (serialSamples false b L (countByte L s)) := by
  obtain ⟨⟨hidx, hhdr⟩, htype, ⟨hdepth, hw⟩, hm, hmod, hacc⟩ := (inFlightOk_samples h).mp hs
  have hwidth : s.w.toNat ≤ 4 := hw ▸ (chunkWidth_range hdepth).2
  have hcount := toNat_m_add_one hm
  have hvalue := accumulate_lt b s.acc s.m.toNat hacc
  have hfits : SampleFits (s.acc ||| (b.setWidth 32 <<< (8 * s.m.toNat)), s.m + 1) := by
    rw [SampleFits, hcount]
    exact ⟨⟨by omega, by omega⟩, hvalue⟩
  have hnext : (s.idx + 1 - 4) % s.w.toNat = (s.m.toNat + 1) % s.w.toNat := by
    rw [hmod, Nat.mod_add_mod]
    congr 1
    omega
  simp only [serialSamples]
  split
  next hends =>
    refine .emitting rfl (sampleBeat_legal L hfits) (by simp [sampleBeat, h, Phase.owesLast]) (by cases L <;> rfl) ?_
    cases L with
    | true => exact (inFlightOk_idle rfl).mpr ⟨⟨rfl, rfl⟩, rfl⟩
    | false =>
      have hfull : s.m.toNat + 1 = s.w.toNat := by
        rw [← hcount]
        exact congrArg BitVec.toNat (hends.resolve_right (by decide))
      have hzero : (s.idx + 1 - 4) % s.w.toNat = 0 := by rw [hnext, hfull, Nat.mod_self]
      exact (inFlightOk_samples rfl).mpr
        ⟨⟨Nat.le_succ_of_le hidx, hhdr⟩, htype, ⟨hdepth, hw⟩, Nat.zero_lt_of_lt hm, hzero.symm, Nat.one_pos⟩
  next hgoes =>
    obtain ⟨hpartial, hL⟩ := not_or.mp hgoes
    have hlt : s.m.toNat + 1 < s.w.toNat := by
      have hne : s.m.toNat + 1 ≠ s.w.toNat := fun e => hpartial (BitVec.eq_of_toNat_eq (hcount.trans e))
      omega
    rw [Bool.not_eq_true] at hL
    subst hL
    refine .silent rfl (by rw [h]; rfl) ((inFlightOk_samples rfl).mpr
      ⟨⟨Nat.le_succ_of_le hidx, hhdr⟩, htype, ⟨hdepth, hw⟩, ?_, ?_, ?_⟩)
    · exact hcount ▸ hlt
    · exact hcount.trans (hnext.trans (Nat.mod_eq_of_lt hlt)).symm
    · exact hcount.symm ▸ hvalue

/-- R160: in every phase, what a byte does keeps the registers sound and the output framed. -/
theorem serialNext_sound (hs : inFlightOk s = true) :
    ByteSound s (serialNext Config.params b L (countByte L s)) := by
  unfold serialNext
  rw [countByte_phase]
  cases h : s.phase with
  | idle => exact serialIdle_sound b L h hs
  | hdr1 => exact serialHdr1_sound b L h hs
  | fld0 => exact serialFld0_sound b L h hs
  | fld1 => exact serialFld1_sound b L _ h hs
  | body => exact serialBody_sound b L h hs
  | samples => exact serialSamples_sound b L h hs
  | discard => exact serialDiscard_sound L h hs

end Byte

theorem accept_keeps_inv (b : Byte) (L : Bool) {s : State} (hs : s.Inv) : (accept Config.params b L s).Inv := by
  have hbyte := serialNext_sound b L ((inv_iff s).mp hs).2.2
  rw [accept_eq]
  refine hs.of_emits ?_ hbyte.run ?_ hbyte.regs
  · rw [commit_oq, hbyte.oq]
  · exact (serialNext_onlyEmits Config.params b L (countByte L s)).delivered

theorem acceptBeats_keeps_inv (fs : List FBeat) {s : State} (hs : s.Inv) : (acceptBeats Config.params fs s).Inv := by
  induction fs generalizing s with
  | nil => exact hs
  | cons f fs ih => exact ih (accept_keeps_inv f.data f.last hs)

/-! ### Samples of a whole body -/

theorem leValue_lt (C : List Byte) : leValue C < 256 ^ C.length := by
  induction C with
  | nil => exact Nat.one_pos
  | cons b bs ih =>
    have hb := b.isLt
    rw [leValue, List.length_cons, pow_succ]
    omega

theorem sampleOf_fits (C : List Byte) (h : 1 ≤ C.length ∧ C.length ≤ 4) : SampleFits (sampleOf false C) := by
  have hcount : (BitVec.ofNat 3 C.length).toNat = C.length := Nat.mod_eq_of_lt (by omega)
  have hvalue : (BitVec.ofNat 32 (leValue C)).toNat < 256 ^ C.length := (Nat.mod_le _ _).trans_lt (leValue_lt C)
  exact ⟨by rwa [sampleOf, hcount], by rw [sampleOf, hcount]; exact hvalue⟩

/-- R133: a chunk has at least one byte and at most the chunk width. -/
theorem length_of_mem_chunksUpTo {fuel w : Nat} {B C : List Byte} (hw : 1 ≤ w) (hC : C ∈ chunksUpTo fuel w B) :
    1 ≤ C.length ∧ C.length ≤ w := by
  induction fuel generalizing B with
  | zero => cases hC
  | succ fuel ih =>
    cases B with
    | nil => cases hC
    | cons b bs =>
      rcases List.mem_cons.mp hC with rfl | hrest
      · simp only [List.length_take, List.length_cons]
        omega
      · exact ih hrest

theorem samplesOf_fit {w : BitVec 3} (hw : 1 ≤ w.toNat ∧ w.toNat ≤ 4) (B : List Byte) :
    ∀ v ∈ samplesOf false w B, SampleFits v := by
  intro v hv
  obtain ⟨C, hC, rfl⟩ := List.mem_map.mp hv
  obtain ⟨hpos, hle⟩ := length_of_mem_chunksUpTo hw.1 hC
  exact sampleOf_fits C ⟨hpos, hle.trans hw.2⟩

/-! ### Whole frames -/

/-- R156: beats of one frame, the final one marked, with a descriptor at most at their head. -/
theorem markLast_run {owes : Bool} {b : Beat} {payload : List Beat} (hlegal : b.legal = true)
    (hopens : b.kind = .desc ↔ owes = false) (hpayload : ∀ x ∈ payload, x.legal = true ∧ x.kind ≠ .desc) :
    BeatRun owes false (markLast (b :: payload)) := by
  induction payload generalizing owes b with
  | nil => exact .single hlegal hopens rfl
  | cons x xs ih =>
    obtain ⟨⟨hx, hkind⟩, hxs⟩ := List.forall_mem_cons.mp hpayload
    exact .cons hlegal hopens (ih hx (by simpa using hkind) hxs)

theorem frameBeatsOut_run {d : Desc} {payload : List Beat} (hd : d.coherent = true)
    (hpayload : ∀ x ∈ payload, x.legal = true ∧ x.kind ≠ .desc) : BeatRun false false (frameBeatsOut d payload) :=
  markLast_run (descBeat_legal false hd) (by simp [descBeat]) hpayload

section WholeFrame

variable {s : State}

theorem latchFrame_keeps_inv (word : Half) (tail : Tail) (hs : s.Inv) (hphase : s.phase = .idle) :
    (latchFrame word tail s).Inv := by
  obtain ⟨hsample, -⟩ := (inFlightOk_idle hphase).mp ((inv_iff s).mp hs).2.2
  refine hs.of_emits (bs := []) (List.append_nil _).symm ?_ rfl ((inFlightOk_idle rfl).mpr ⟨hsample, rfl⟩)
  rw [hphase]
  exact .nil false

/-- A frame's beats emitted at IDLE. -/
theorem emit_keeps_inv {bs : List Beat} (hs : s.Inv) (hphase : s.phase = .idle) (hrun : BeatRun false false bs) :
    (emit bs s).Inv := by
  refine hs.of_emits rfl ?_ rfl ((inv_iff s).mp hs).2.2
  rw [emit_phase, hphase]
  exact hrun

theorem commit_errorEntry_keeps_inv {d : Desc} (hs : s.Inv) (hphase : s.phase = .idle) (hd : d.coherent = true) :
    (commit (errorEntry d true s)).Inv := by
  have hsame : commit (errorEntry d true s) = emit [descBeat d true] s := by
    cases s
    cases hphase
    rfl
  rw [hsame]
  exact emit_keeps_inv hs hphase (.single (descBeat_legal true hd) (by simp [descBeat]) rfl)

theorem shortFrame_keeps_inv (word : Half) (hs : s.Inv) (hphase : s.phase = .idle) : (shortFrame word s).Inv :=
  commit_errorEntry_keeps_inv hs hphase (headerRecord_coherent word)

theorem controlItem_keeps_inv (word code : Half) (body : List Byte) (htype : isDataType (msgType word) = false)
    (hs : s.Inv) (hphase : s.phase = .idle) : (controlItem Config.params word code body s).Inv := by
  have hd := controlRecord_coherent Config.params word code body htype
  simp only [controlItem]
  split
  · refine emit_keeps_inv hs hphase (frameBeatsOut_run hd ?_)
    intro x hx
    obtain ⟨b, -, rfl⟩ := List.mem_map.mp hx
    exact ⟨bodyBeat_legal b false, by simp [bodyBeat]⟩
  · exact commit_errorEntry_keeps_inv hs hphase hd

/-- Where no payload is owed the frame in flight can end, and no sample is begun. -/
theorem endFrame_keeps_inv (w : BitVec 3) (hs : s.Inv) (howes : s.phase.owesLast = false) :
    (endFrame { s with w := w, acc := 0, m := 0 }).Inv := by
  refine hs.of_emits (bs := []) (List.append_nil _).symm ?_ rfl ((inFlightOk_idle rfl).mpr ⟨⟨rfl, rfl⟩, rfl⟩)
  rw [howes]
  exact .nil false

theorem itemWord_isDataType (item : DataItem) :
    isDataType (msgType (headerWord (dataType item.sub) item.declLen)) = true := by simp

theorem extractItem_keeps_inv (d : Word) (item : DataItem) (hs : s.Inv) (howes : s.phase.owesLast = false) :
    (extractItem Config.params d item s).Inv := by
  unfold extractItem
  split
  next hdepth =>
    have hw := chunkWidth_range hdepth
    refine emit_keeps_inv (endFrame_keeps_inv _ hs howes) rfl
      (frameBeatsOut_run (dataRecord_ok_coherent _ _ _ _ _ (itemWord_isDataType item) hw) ?_)
    intro x hx
    obtain ⟨v, hv, rfl⟩ := List.mem_map.mp hx
    exact ⟨sampleBeat_legal false (samplesOf_fit hw item.body v hv), by simp [sampleBeat]⟩
  next =>
    obtain ⟨hacc, hm⟩ := sampleRegister_empty ((inv_iff s).mp hs).2.2 howes
    have hsame : endFrame { s with w := s.w, acc := 0, m := 0 } = endFrame s := by rw [← hacc, ← hm]
    have hended : (endFrame s).Inv := hsame ▸ endFrame_keeps_inv s.w hs howes
    exact commit_errorEntry_keeps_inv hended rfl
      (dataRecord_depthErr_coherent _ _ _ _ (itemWord_isDataType item))

theorem controlFrame_keeps_inv (t : BitVec 3) (len : BitVec 13) (tail : Tail) (ht : isDataType t = false) (hs : s.Inv) :
    (controlFrame Config.params t len tail s).Inv := by
  by_cases hphase : s.phase = .idle
  · have hlatch := latchFrame_keeps_inv (headerWord t len) tail hs hphase
    rw [controlFrame_idle _ t len tail s hphase]
    cases tail with
    | empty => exact shortFrame_keeps_inv _ hlatch rfl
    | part lo => exact shortFrame_keeps_inv _ hlatch rfl
    | fields code body => exact controlItem_keeps_inv _ code body (by simpa using ht) hlatch rfl
  · rw [controlFrame_inFlight _ t len tail s hphase]
    exact acceptBeats_keeps_inv _ hs

theorem dataFrame_keeps_inv (sub : BitVec 2) (len : BitVec 13) (tail : Tail) (hs : s.Inv) :
    (dataFrame Config.params sub len tail s).Inv := by
  by_cases hphase : s.phase = .idle
  · have hlatch := latchFrame_keeps_inv (headerWord (dataType sub) len) tail hs hphase
    rw [dataFrame_idle _ sub len tail s hphase]
    cases tail with
    | empty => exact shortFrame_keeps_inv _ hlatch rfl
    | part lo => exact shortFrame_keeps_inv _ hlatch rfl
    | fields seq body => exact extractItem_keeps_inv _ _ hlatch rfl
  · rw [dataFrame_inFlight _ sub len tail s hphase]
    exact acceptBeats_keeps_inv _ hs

end WholeFrame

/-! ### The operations of a turn -/

theorem chunkWidth_eq {d : Word} (w : BitVec 3) (h : (d.toNat + 7) / 8 = w.toNat) : chunkWidth d = w := by
  rw [chunkWidth, Nat.shiftRight_eq_div_pow, h, BitVec.ofNat_toNat, BitVec.setWidth_eq]

/-- R132, R136 to R140: the class a depth selects extracts under that depth's chunk width. -/
theorem exec_decodeDepth (depth : Word) (item : DataItem) (s : State) :
    exec (decodeDepth depth item) s = .next (extractItem Config.params depth item s) := by
  by_cases hdepth : depth.toNat = 0 ∨ 32 < depth.toNat
  · rw [decodeDepth_outOfRange depth item hdepth, extractItem_outOfRange _ _ _ _ (by simp [depthInRange]; omega)]
    rfl
  · rw [extractItem_inRange _ _ _ _ (by simp [depthInRange]; omega)]
    simp only [decodeDepth, if_neg hdepth]
    split_ifs
    · rw [chunkWidth_eq 1 (by simp; omega)]; rfl
    · rw [chunkWidth_eq 2 (by simp; omega)]; rfl
    · rw [chunkWidth_eq 3 (by simp; omega)]; rfl
    · rw [chunkWidth_eq 4 (by simp; omega)]; rfl

theorem runTransfer_frame_keeps_inv (F : List Byte) {s : State} (hs : s.Inv) :
    ∃ t, runTransfer (.frame F) s = .next t ∧ t.Inv := by
  match F with
  | [] => exact ⟨_, rfl, hs⟩
  | [_] => exact ⟨_, rfl, acceptBeats_keeps_inv _ hs⟩
  | lo :: hi :: rest =>
    refine ⟨_, (runTransfer_ok _ s _ (decode_frame_cons lo hi rest)).trans (exec_decodeHeader _ _ s), ?_⟩
    split
    next => exact dataFrame_keeps_inv _ _ _ hs
    next ht => exact controlFrame_keeps_inv _ _ _ (by simpa using ht) hs

theorem runTransfer_extract_keeps_inv (depth : Word) (word field : Half) (body : List Byte) {s : State} (hs : s.Inv)
    (howes : s.phase.owesLast = false) : ∃ t, runTransfer (.extract depth word field body) s = .next t ∧ t.Inv := by
  cases htype : isDataType (msgType word) with
  | true =>
    rw [runTransfer_ok (.extract depth word field body) s _ (by rw [decode, if_pos htype]), exec_decodeDepth]
    exact ⟨_, rfl, extractItem_keeps_inv depth _ hs howes⟩
  | false =>
    have hdecode : decode (.extract depth word field body) = .error .notDataItem := by simp [decode, htype]
    exact ⟨s, runTransfer_error _ s _ hdecode, hs⟩

/-! ### One turn -/

theorem fetchFrame_keeps_inv {s : State} (hs : s.Inv) : ∃ t, runFetched (fetchFrame s) = .next t ∧ t.Inv := by
  obtain ⟨-, h⟩ | ⟨n, h⟩ | ⟨F, rest, n, -, -, h⟩ := fetchFrame_cases s
  · exact ⟨s, by rw [h]; rfl, hs⟩
  · exact ⟨_, by rw [h]; rfl, hs.ports s.cfg s.fIn s.cIn s.turns s.replies n⟩
  · have htaken := hs.ports s.cfg rest s.cIn s.turns s.replies n
    rw [h]
    unfold fetchBytes
    split
    next => exact runTransfer_frame_keeps_inv _ htaken
    next hphase _ => exact runTransfer_extract_keeps_inv _ _ _ _ htaken (by rw [hphase]; rfl)
    next => exact ⟨_, rfl, acceptBeats_keeps_inv _ htaken⟩

theorem acceptByte_keeps_inv {s : State} (hs : s.Inv) : (acceptByte s).Inv := by
  obtain ⟨-, h⟩ | ⟨n, h⟩ | ⟨f, rest, n, -, h⟩ := acceptByte_cases s
  · rwa [h]
  · rw [h]
    exact hs.ports s.cfg s.fIn s.cIn s.turns s.replies n
  · rw [h]
    exact accept_keeps_inv f.data f.last (hs.ports s.cfg rest s.cIn s.turns s.replies n)

theorem writeReg_keeps_inv (off : BitVec 8) (v : Word) {s : State} (hs : s.Inv) : (writeReg off v s).Inv := by
  unfold writeReg
  split
  · exact hs.ports v s.fIn s.cIn s.turns s.replies s.freeIx
  · exact hs

theorem fetchConfig_keeps_inv {s : State} (hs : s.Inv) : ∃ t, runFetched (fetchConfig s) = .next t ∧ t.Inv := by
  cases hcIn : s.cIn with
  | nil => exact ⟨s, by rw [fetchConfig_nil s hcIn]; rfl, hs⟩
  | cons a as =>
    obtain ⟨write, addr, wdata⟩ := a
    rw [fetchConfig_cons s _ as hcIn]
    have htaken := hs.ports s.cfg s.fIn as s.turns s.replies s.freeIx
    cases write with
    | true => exact ⟨_, rfl, writeReg_keeps_inv addr wdata htaken⟩
    | false => exact ⟨_, rfl, htaken.ports s.cfg s.fIn as s.turns _ s.freeIx⟩

/-- R163 `Take`: the head of a run of beats leaves a run. -/
theorem takeBeat_keeps_inv {s : State} (hs : s.Inv) : (takeBeat s).Inv := by
  cases hoq : s.oq with
  | nil => rwa [takeBeat_nil s hoq]
  | cons b rest =>
    obtain ⟨⟨owes, hrun⟩, hdelivered, hregs⟩ := (inv_iff s).mp hs
    rw [takeBeat_cons s b rest hoq]
    rw [hoq] at hrun
    cases hrun with
    | cons hlegal _ hrest => exact (inv_iff _).mpr ⟨⟨_, hrest⟩, by simp [hdelivered, hlegal], hregs⟩

theorem resetBlock_keeps_inv {s : State} (hs : s.Inv) : (resetBlock s).Inv :=
  inv_of_idle_of_empty _ rfl ((inv_iff s).mp hs).2.1 rfl rfl rfl rfl

theorem fetchTurn_keeps_inv (turn : Turn) {s : State} (hs : s.Inv) :
    ∃ t, runFetched (fetchTurn turn s) = .next t ∧ t.Inv := by
  cases turn with
  | rst => exact ⟨_, rfl, resetBlock_keeps_inv hs⟩
  | config => exact fetchConfig_keeps_inv hs
  | frame => exact fetchFrame_keeps_inv hs
  | byte => exact ⟨_, rfl, acceptByte_keeps_inv hs⟩
  | byteWithConfig => exact fetchConfig_keeps_inv (acceptByte_keeps_inv hs)
  | take => exact ⟨_, rfl, takeBeat_keeps_inv hs⟩

theorem step_keeps_inv {s : State} (hs : s.Inv) : ∃ t, step s = .next t ∧ t.Inv := by
  rw [step_eq_runFetched]
  cases hturns : s.turns with
  | nil => exact ⟨s, by rw [fetch_nil s hturns]; rfl, hs⟩
  | cons turn ts =>
    rw [fetch_cons s turn ts hturns]
    exact fetchTurn_keeps_inv turn (hs.ports s.cfg s.fIn s.cIn ts s.replies s.freeIx)

/-- Settles O59: whichever turn a step takes, what it answers meets the invariant. -/
theorem stepKeepsInvariant : Obligations.StepKeepsInvariant := by
  intro s t hs hstep
  obtain ⟨t', hnext, ht'⟩ := step_keeps_inv hs
  cases hnext.symm.trans hstep
  exact ht'

end Sys2Proof.Machine

/-! Decoding a frame (spec/40_header_unpack.md R90 to R94): the header is reported from 2 bytes on (O21), the declared length
only reported (O22), and the payload beats account for every byte after the fixed ones (O25). -/

namespace Sys2Proof.Machine

/-! ### The decode record and the header -/

/-- R91, R100: whatever the outcome of the later checks, the record of a frame with a header carries the header's fields. -/
theorem decodeFrame_extends_headerRecord (P : Params) (b0 b1 : Byte) (rest : List Byte) :
    ∃ status seqValid code seq body, decodeFrame P (b0 :: b1 :: rest) =
      { headerRecord (le16 b0 b1) with status, seqValid, code, seq, body } := by
  match rest with
  | [] => exact ⟨_, _, _, _, _, rfl⟩
  | [_] => exact ⟨_, _, _, _, _, rfl⟩
  | b2 :: b3 :: body =>
    rw [decodeFrame]
    split
    · exact ⟨_, _, _, _, _, rfl⟩
    · rw [controlRecord]
      split
      · exact ⟨_, _, _, _, _, rfl⟩
      · exact ⟨_, _, _, _, _, rfl⟩

theorem decodeFrame_of_length_lt_two (P : Params) {F : List Byte} (h : F.length < 2) :
    decodeFrame P F = noHeaderRecord := by
  match F, h with
  | [], _ => rfl
  | [_], _ => rfl

/-- R41, R92: the category bit of the type is the top bit of the header's second byte. -/
theorem isDataType_le16 (b0 b1 : Byte) : isDataType (msgType (le16 b0 b1)) = decide (128 ≤ b1.toNat) := by
  obtain ⟨-, htype, -⟩ := headerFieldsInBytes b0 b1
  rw [Bool.eq_iff_iff, isDataType_iff, htype, decide_eq_true_iff]
  omega

/-- Settles O21: with 2 bytes the record extends the header's, and with fewer it is the record with no header. -/
theorem headerReportedFromTwoBytes : Obligations.HeaderReportedFromTwoBytes := by
  intro P F
  constructor
  · rintro b0 b1 rest rfl
    obtain ⟨_, _, _, _, _, hrecord⟩ := decodeFrame_extends_headerRecord P b0 b1 rest
    obtain ⟨-, htype, hlen⟩ := headerFieldsInBytes b0 b1
    rw [hrecord]
    exact ⟨rfl, htype, hlen, isDataType_le16 b0 b1⟩
  · intro hshort
    rw [decodeFrame_of_length_lt_two P hshort]
    exact ⟨rfl, rfl, rfl, rfl⟩

/-! ### The declared length in the decode record -/

section DeclaredLength

variable (P : Params) (t : BitVec 3) (len len' : BitVec 13)

theorem headerRecord_set_declLen :
    headerRecord (headerWord t len') = { headerRecord (headerWord t len) with declLen := len' } := by
  simp [headerRecord]

theorem dataRecord_set_declLen (seq : Half) (body : List Byte) :
    dataRecord P (headerWord t len') seq body = { dataRecord P (headerWord t len) seq body with declLen := len' } := by
  rw [dataRecord, headerRecord_set_declLen t len len', dataRecord]

theorem controlRecord_set_declLen (code : Half) (body : List Byte) :
    controlRecord P (headerWord t len') code body =
      { controlRecord P (headerWord t len) code body with declLen := len' } := by
  rw [controlRecord, headerRecord_set_declLen t len len', controlRecord]
  split <;> rfl

/-- R93: frames that differ in the declared length alone give records that do. -/
theorem decodeFrame_set_declLen (tail : Tail) :
    decodeFrame P (frameBytes t len' tail) = { decodeFrame P (frameBytes t len tail) with declLen := len' } := by
  cases tail with
  | empty => simpa [frameBytes, Tail.bytes, decodeFrame] using headerRecord_set_declLen t len len'
  | part lo => simpa [frameBytes, Tail.bytes, decodeFrame] using headerRecord_set_declLen t len len'
  | fields field body =>
    rw [decodeFrame_fields, decodeFrame_fields]
    split
    · exact dataRecord_set_declLen P t len len' field body
    · exact controlRecord_set_declLen P t len len' field body

end DeclaredLength

/-! ### The body -/

/-- R103: an OK control record keeps the body it was given. -/
theorem controlRecord_body_of_ok {P : Params} {word code : Half} {body : List Byte}
    (h : (controlRecord P word code body).status = .ok) : (controlRecord P word code body).body = body := by
  cases hcode : P.knows code with
  | true => rw [controlRecord_known P word code body hcode]
  | false =>
    rw [controlRecord_unknown P word code body hcode] at h
    cases h

/-- R94, R100: a frame decodes OK only if it has its 4 fixed bytes, and its body is what follows them. -/
theorem eq_fixed_append_body_of_ok {P : Params} {F : List Byte} (h : (decodeFrame P F).status = .ok) :
    ∃ b0 b1 b2 b3, F = b0 :: b1 :: b2 :: b3 :: (decodeFrame P F).body := by
  match F, h with
  | b0 :: b1 :: b2 :: b3 :: body, h =>
    have hbody : (decodeFrame P (b0 :: b1 :: b2 :: b3 :: body)).body = body := by
      rw [decodeFrame] at h ⊢
      split_ifs at h ⊢
      · rfl
      · exact controlRecord_body_of_ok h
    exact ⟨b0, b1, b2, b3, by rw [hbody]⟩

/-! ### `Out` as a descriptor and a payload -/

/-- R153 to R155: the beats that follow the descriptor of a decoded frame, before `o_last` is marked. -/
def payloadBeats (P : Params) (d : Word) (D : DecodeRecord) : List Beat :=
  match D.status, D.isData with
  | .ok, false => D.body.map (bodyBeat · false)
  | .ok, true => (extract P.sampleSigned d D.body).2.2.map (sampleBeat · false)
  | _, _ => []

theorem frameOut_eq_frameBeatsOut (P : Params) (d : Word) (F : List Byte) :
    ∃ desc, frameOut P d F = frameBeatsOut desc (payloadBeats P d (decodeFrame P F)) := by
  unfold frameOut payloadBeats
  generalize decodeFrame P F = D
  obtain ⟨status, _, isData⟩ := D
  match status, isData with
  | .ok, false => exact ⟨_, rfl⟩
  | .ok, true => exact ⟨_, rfl⟩
  | .short, _ => exact ⟨_, rfl⟩
  | .badCode, _ => exact ⟨_, rfl⟩

/-- Which beats follow the descriptor does not depend on what it says. -/
theorem frameBeatsOut_tail (desc : Desc) (payload : List Beat) : (frameBeatsOut desc payload).tail = markLast payload := by
  cases payload <;> rfl

theorem frameOut_tail (P : Params) (d : Word) (F : List Byte) :
    (frameOut P d F).tail = markLast (payloadBeats P d (decodeFrame P F)) := by
  obtain ⟨desc, hout⟩ := frameOut_eq_frameBeatsOut P d F
  rw [hout, frameBeatsOut_tail]

/-- Settles O22: the record's other fields, which select the payload, are those of any declared length. -/
theorem declaredLengthIsOnlyReported : Obligations.DeclaredLengthIsOnlyReported := by
  intro P d t len len' rest F F'
  have hrecord : decodeFrame P F' = { decodeFrame P F with declLen := len' } := by
    simpa [frameBytes] using decodeFrame_set_declLen P t len len' (tailOf rest)
  refine ⟨hrecord, ?_, fun hok => ?_⟩
  · rw [frameOut_tail, frameOut_tail, hrecord]
    rfl
  · obtain ⟨b0, b1, b2, b3, hF⟩ := eq_fixed_append_body_of_ok hok
    exact (congrArg (List.drop 4) hF).symm

/-! ### The bytes the beats carry -/

/-- The number of body bytes a run of beats carries. -/
def byteCount (bs : List Beat) : Nat := (bs.map (·.nbytes.toNat)).sum

theorem byteCount_cons (b : Beat) (bs : List Beat) : byteCount (b :: bs) = b.nbytes.toNat + byteCount bs := rfl

/-- R156: marking the final beat does not change what a beat carries. -/
theorem byteCount_markLast (bs : List Beat) : byteCount (markLast bs) = byteCount bs := by
  induction bs with
  | nil => rfl
  | cons b bs ih =>
    cases bs with
    | nil => rfl
    | cons b' bs' => exact congrArg (b.nbytes.toNat + ·) ih

/-- R68: the descriptor carries no body byte. -/
theorem byteCount_frameBeatsOut (desc : Desc) (payload : List Beat) :
    byteCount (frameBeatsOut desc payload) = byteCount payload := by
  rw [frameBeatsOut, byteCount_markLast, byteCount_cons]
  exact Nat.zero_add _

/-- R153: one beat a byte. -/
theorem byteCount_bodyBeats (B : List Byte) : byteCount (B.map (bodyBeat · false)) = B.length := by
  simp [byteCount, bodyBeat, Function.comp_def]

/-- R133: the chunks, put together again, are the body. -/
theorem flatten_chunksUpTo {fuel w : Nat} {B : List Byte} (hw : 1 ≤ w) (hfuel : B.length ≤ fuel) :
    (chunksUpTo fuel w B).flatten = B := by
  induction fuel generalizing B with
  | zero => rw [List.length_eq_zero_iff.mp (Nat.le_zero.mp hfuel)]; rfl
  | succ fuel ih =>
    cases B with
    | nil => rfl
    | cons b bs =>
      have hrest : ((b :: bs).drop w).length ≤ fuel := by simp only [List.length_drop, List.length_cons] at *; omega
      simp only [chunksUpTo, List.flatten_cons, ih hrest, List.take_append_drop]

theorem sampleOf_nbytes (signed : Bool) {C : List Byte} (h : C.length ≤ 4) : (sampleOf signed C).2.toNat = C.length :=
  Nat.mod_eq_of_lt (by omega)

/-- R133, R154: each sample beat carries its chunk's bytes, and the chunks partition the body. -/
theorem byteCount_sampleBeats (signed : Bool) {w : BitVec 3} (hw : 1 ≤ w.toNat ∧ w.toNat ≤ 4) (B : List Byte) :
    byteCount ((samplesOf signed w B).map (sampleBeat · false)) = B.length := by
  have hcounts : ∀ C ∈ chunks w.toNat B, (sampleOf signed C).2.toNat = C.length := fun C hC =>
    sampleOf_nbytes signed ((length_of_mem_chunksUpTo hw.1 hC).2.trans hw.2)
  calc byteCount ((samplesOf signed w B).map (sampleBeat · false))
      = ((chunks w.toNat B).map fun C => (sampleOf signed C).2.toNat).sum := by
        simp [byteCount, samplesOf, sampleBeat, Function.comp_def]
    _ = ((chunks w.toNat B).map List.length).sum := by rw [List.map_congr_left hcounts]
    _ = (chunks w.toNat B).flatten.length := List.length_flatten.symm
    _ = B.length := by rw [chunks, flatten_chunksUpTo hw.1 le_rfl]

/-- R153, R154: the payload of an OK frame, its depth in range if it holds samples, carries the whole body. -/
theorem byteCount_payloadBeats (P : Params) (d : Word) (D : DecodeRecord) (hok : D.status = .ok)
    (hdepth : D.isData = true → depthInRange d = true) : byteCount (payloadBeats P d D) = D.body.length := by
  cases hdata : D.isData with
  | false => simp only [payloadBeats, hok, hdata, byteCount_bodyBeats]
  | true =>
    have hd := hdepth hdata
    simp only [payloadBeats, hok, hdata, extract, hd, if_true]
    exact byteCount_sampleBeats P.sampleSigned (chunkWidth_range hd) D.body

/-- Settles O25: the frame is its 4 fixed bytes and its body, and the payload beats carry the body. -/
theorem payloadBytesCountTheFrame : Obligations.PayloadBytesCountTheFrame := by
  intro P d F hok hdepth
  obtain ⟨desc, hout⟩ := frameOut_eq_frameBeatsOut P d F
  obtain ⟨b0, b1, b2, b3, hF⟩ := eq_fixed_append_body_of_ok hok
  have hrange : (decodeFrame P F).isData = true → depthInRange d = true := fun hdata => by
    have := hdepth hdata
    simp [depthInRange]
    omega
  calc F.length
      = 4 + (decodeFrame P F).body.length := by
        have hlength := congrArg List.length hF
        simp only [List.length_cons] at hlength
        omega
    _ = 4 + byteCount (payloadBeats P d (decodeFrame P F)) := by rw [byteCount_payloadBeats P d _ hok hrange]
    _ = 4 + byteCount (frameOut P d F) := by rw [hout, byteCount_frameBeatsOut]

end Sys2Proof.Machine

/-! Decoding a frame at a frame boundary: the frames whose descriptor is all they output, SHORT (O29) and BADCODE (O27, O28),
and the extraction class a data frame runs (O31). -/

namespace Sys2Proof.Machine

/-! ### Frames that output a descriptor alone -/

/-- The state after a frame that met an error, accepted at a frame boundary: the registers of log 23, with `fld` in the place
of the frame's third byte, and the descriptor `d` alone appended to OQ (R154, R155). -/
def afterErrorFrame (t : BitVec 3) (len : BitVec 13) (fld : Byte) (d : Desc) (s : State) : State :=
  { s with
    dLat := s.cfg
    hdrLo := loByte (headerWord t len)
    word := headerWord t len
    fldLo := fld
    idx := 0
    oq := s.oq ++ [descBeat d true] }

/-- The descriptor of a frame of 2 or 3 bytes (R101, R113). -/
def shortDesc (t : BitVec 3) (len : BitVec 13) : Desc :=
  ⟨.short, true, decide (4 ≤ t.toNat), t, false, len, .none, 0, 0, 0⟩

/-- The descriptor of a control frame with an unknown code (R103, R113). -/
def badCodeDesc (t : BitVec 3) (len : BitVec 13) (code : Half) : Desc :=
  ⟨.badCode, true, false, t, false, len, .none, 0, code, 0⟩

section ErrorFrames

variable (P : Params) (t : BitVec 3) (len : BitVec 13) {s : State}

/-- R176: at a frame boundary, error entry leaves the frame's registers latched and its descriptor in OQ. -/
theorem commit_errorEntry_latchFrame (tail : Tail) (d : Desc) (hs : s.phase = .idle) :
    commit (errorEntry d true (latchFrame (headerWord t len) tail s)) =
      afterErrorFrame t len (latchFrame (headerWord t len) tail s).fldLo d s := by
  cases s
  cases hs
  rfl

theorem headerRecord_desc : (headerRecord (headerWord t len)).desc .none 0 = shortDesc t len := by
  have hdata : isDataType t = decide (4 ≤ t.toNat) := Bool.eq_iff_iff.mpr (by simp [isDataType_iff])
  simp [headerRecord, noHeaderRecord, DecodeRecord.desc, shortDesc, hdata]

theorem controlRecord_desc_unknown {code : Half} (body : List Byte) (ht : isDataType t = false)
    (hcode : P.knows code = false) :
    (controlRecord P (headerWord t len) code body).desc .none 0 = badCodeDesc t len code := by
  simp [controlRecord_unknown P _ code body hcode, headerRecord, noHeaderRecord, DecodeRecord.desc, badCodeDesc, ht]

theorem shortFrame_latchFrame (tail : Tail) (hs : s.phase = .idle) :
    shortFrame (headerWord t len) (latchFrame (headerWord t len) tail s) =
      afterErrorFrame t len (latchFrame (headerWord t len) tail s).fldLo (shortDesc t len) s := by
  rw [shortFrame, commit_errorEntry_latchFrame t len tail _ hs, headerRecord_desc]

theorem controlFrame_short (tail : Tail) (htail : tail.bytes.length < 2) (hs : s.phase = .idle) :
    controlFrame P t len tail s =
      afterErrorFrame t len (latchFrame (headerWord t len) tail s).fldLo (shortDesc t len) s := by
  rw [controlFrame_idle P t len tail s hs]
  cases tail with
  | empty => exact shortFrame_latchFrame t len .empty hs
  | part lo => exact shortFrame_latchFrame t len (.part lo) hs
  | fields code body => simp [Tail.bytes] at htail

theorem dataFrame_short (sub : BitVec 2) (tail : Tail) (htail : tail.bytes.length < 2) (hs : s.phase = .idle) :
    dataFrame P sub len tail s =
      afterErrorFrame (dataType sub) len (latchFrame (headerWord (dataType sub) len) tail s).fldLo
        (shortDesc (dataType sub) len) s := by
  rw [dataFrame_idle P sub len tail s hs]
  cases tail with
  | empty => exact shortFrame_latchFrame (dataType sub) len .empty hs
  | part lo => exact shortFrame_latchFrame (dataType sub) len (.part lo) hs
  | fields seq body => simp [Tail.bytes] at htail

theorem controlFrame_unknown {code : Half} (body : List Byte) (ht : isDataType t = false)
    (hcode : P.knows code = false) (hs : s.phase = .idle) :
    controlFrame P t len (.fields code body) s =
      afterErrorFrame t len (loByte code) (badCodeDesc t len code) s := by
  rw [controlFrame_idle P t len _ s hs]
  simp only [controlItem, hcode, Bool.false_eq_true, if_false]
  rw [commit_errorEntry_latchFrame t len _ _ hs, controlRecord_desc_unknown P t len body ht hcode]
  rfl

end ErrorFrames

/-- Settles O29: each row is its category's frame step, on a tail of no byte and on a tail of one. -/
theorem shortFrameOutputsDescriptorAlone : Obligations.ShortFrameOutputsDescriptorAlone := by
  intro s len b hs
  have control (t : BitVec 3) (tail : Tail) (htail : tail.bytes.length < 2) :=
    congrArg (Host.Outcome.next (φ := Fault) (ρ := Refusal)) (controlFrame_short Config.params t len tail htail hs)
  have data (sub : BitVec 2) (tail : Tail) (htail : tail.bytes.length < 2) :=
    congrArg (Host.Outcome.next (φ := Fault) (ρ := Refusal)) (dataFrame_short Config.params len sub tail htail hs)
  have hempty : Tail.empty.bytes.length < 2 := Nat.zero_lt_two
  have hpart : (Tail.part b).bytes.length < 2 := Nat.one_lt_two
  exact ⟨⟨control 0 _ hempty, control 0 _ hpart⟩, ⟨control 1 _ hempty, control 1 _ hpart⟩,
    ⟨control 2 _ hempty, control 2 _ hpart⟩, ⟨control 3 _ hempty, control 3 _ hpart⟩,
    ⟨data 0 _ hempty, data 0 _ hpart⟩, ⟨data 1 _ hempty, data 1 _ hpart⟩,
    ⟨data 2 _ hempty, data 2 _ hpart⟩, ⟨data 3 _ hempty, data 3 _ hpart⟩⟩

/-- Settles O27: each of the four rows is the control frame's step with its type. -/
theorem unknownCodeOutputsDescriptorAlone : Obligations.UnknownCodeOutputsDescriptorAlone := by
  intro s len code body hs hcode
  have control (t : BitVec 3) (ht : isDataType t = false) :=
    congrArg (Host.Outcome.next (φ := Fault) (ρ := Refusal)) (controlFrame_unknown Config.params t len body ht hcode hs)
  exact ⟨control 0 rfl, control 1 rfl, control 2 rfl, control 3 rfl⟩

/-! ### Code 9999 -/

/-- Every known code is picked by an index (log 1). -/
theorem exists_codeAt_of_known {code : Half} (h : code ∈ Config.params.knownCodes) : ∃ i, Config.codeAt i = code := by
  simp only [Config.params, Config.receiverStateCode, List.mem_cons, List.mem_map] at h
  obtain rfl | rfl | ⟨i, -, rfl⟩ := h
  · exact ⟨_, rfl⟩
  · exact ⟨_, rfl⟩
  · exact ⟨i, rfl⟩

theorem code9999_not_known : (9999 : Half) ∉ Config.params.knownCodes := fun h =>
  have ⟨i, hi⟩ := exists_codeAt_of_known h
  Config.codeAt_ne_9999 i hi

/-- D3 holds of the model's open parameters. -/
theorem params_admissible : Config.params.Admissible Config.receiverStateCode :=
  ⟨code9999_not_known, (Params.knows_iff _ _).mp Config.params_knows_codeNone, .tail _ (.head _)⟩

/-- Settles O28: 9999 is an unknown code, so DEC_ACK answers as O27 says. -/
theorem code9999AlwaysFails : Obligations.Code9999AlwaysFails := by
  refine ⟨params_admissible, fun s len body hs => ?_⟩
  have hcode : Config.params.knows 0x270F = false :=
    Bool.eq_false_iff.mpr fun h => code9999_not_known ((Params.knows_iff _ _).mp h)
  obtain ⟨-, -, -, hack⟩ := unknownCodeOutputsDescriptorAlone s len 0x270F body hs hcode
  exact ⟨_, hack, rfl⟩

/-! ### The extraction class of a data frame -/

/-- R109: at a frame boundary the frame step extracts under CFG, which is what the class CFG selects does once the header is
latched. -/
theorem dataFrame_runs_decodeDepth (sub : BitVec 2) (len : BitVec 13) (seq : Half) (body : List Byte) {s : State}
    (hs : s.phase = .idle) :
    .next (dataFrame Config.params sub len (.fields seq body) s) =
      exec (decodeDepth s.cfg ⟨sub, len, seq, body⟩)
        (latchFrame (headerWord (dataType sub) len) (.fields seq body) s) := by
  rw [exec_decodeDepth, dataFrame_idle _ _ _ _ _ hs]

/-- Settles O31: each of the four rows is the data frame's step with its item number. -/
theorem dataFrameRunsSelectedClass : Obligations.DataFrameRunsSelectedClass := fun _ len seq body hs =>
  ⟨dataFrame_runs_decodeDepth 0 len seq body hs, dataFrame_runs_decodeDepth 1 len seq body hs,
    dataFrame_runs_decodeDepth 2 len seq body hs, dataFrame_runs_decodeDepth 3 len seq body hs⟩

end Sys2Proof.Machine

/-! Sample extraction (spec/42_sample_extract.md R130 to R141): the cut into chunks (O36, O37), the value of a chunk
(O38), the samples of each width (O39 to O42), and the class, the width and the outcome a depth selects (O17, O32 to
O35). -/

namespace Sys2Proof.Machine

/-! ### The cut into chunks -/

section Chunks

variable {w : Nat} {B : List Byte}

/-- R133: chunk `i` starts at offset `w * i`, and there is one as long as that offset lies in the body. -/
theorem chunks_getElem? (hw : 0 < w) (B : List Byte) (i : Nat) :
    (chunks w B)[i]? = if w * i < B.length then some ((B.drop (w * i)).take w) else none := by
  induction i generalizing B with
  | zero =>
    cases B with
    | nil => rfl
    | cons b bs => simp [chunks_step w hw]
  | succ i ih =>
    cases B with
    | nil => rfl
    | cons b bs =>
      have hoffset : w * (i + 1) = w + w * i := by rw [Nat.mul_succ, Nat.add_comm]
      rw [chunks_step w hw _ (List.cons_ne_nil b bs), List.getElem?_cons_succ, ih, List.drop_drop, List.length_drop,
        hoffset]
      simp only [Nat.lt_sub_iff_add_lt']

theorem lt_chunks_length_iff (hw : 0 < w) {i : Nat} : i < (chunks w B).length ↔ w * i < B.length := by
  have hchunk := chunks_getElem? hw B i
  constructor
  · intro hi
    by_contra hoffset
    rw [if_neg hoffset, List.getElem?_eq_none_iff] at hchunk
    omega
  · intro hoffset
    rw [if_pos hoffset] at hchunk
    exact (List.getElem?_eq_some_iff.mp hchunk).1

/-- R133: ceil(k / w) chunks. -/
theorem chunks_length (hw : 0 < w) : (chunks w B).length = (B.length + w - 1) / w := by
  refine eq_of_forall_lt_iff fun i => ?_
  rw [lt_chunks_length_iff hw, Nat.lt_iff_add_one_le (m := i), Nat.le_div_iff_mul_le hw, Nat.succ_mul, Nat.mul_comm i w]
  omega

theorem chunks_flatten (hw : 0 < w) : (chunks w B).flatten = B := flatten_chunksUpTo hw le_rfl

/-- R133: every chunk but the last is full. -/
theorem chunk_full (hw : 0 < w) {i : Nat} (hi : i + 1 < (chunks w B).length) :
    ((B.drop (w * i)).take w).length = w := by
  have hnext := (lt_chunks_length_iff hw).mp hi
  rw [Nat.mul_succ] at hnext
  rw [List.length_take, List.length_drop]
  omega

/-- A body that fits into one chunk. -/
theorem chunks_of_length_le {C : List Byte} (hC : C ≠ []) (hle : C.length ≤ w) : chunks w C = [C] := by
  have hw : 0 < w := (List.length_pos_iff.mpr hC).trans_le hle
  rw [chunks_step w hw C hC, List.take_of_length_le hle, List.drop_of_length_le hle, chunks_nil]

/-- Where `q` whole chunks end, the cut starts anew. -/
theorem chunks_append (hw : 0 < w) {q : Nat} {A : List Byte} (hA : A.length = w * q) (C : List Byte) :
    chunks w (A ++ C) = chunks w A ++ chunks w C := by
  induction q generalizing A with
  | zero => rw [List.length_eq_zero_iff.mp hA]; rfl
  | succ q ih =>
    rw [Nat.mul_succ] at hA
    have hne : A ≠ [] := by rintro rfl; rw [List.length_nil] at hA; omega
    have hrest : (A.drop w).length = w * q := by rw [List.length_drop, hA]; omega
    rw [chunks_step w hw _ (List.append_ne_nil_of_left_ne_nil hne C), chunks_step w hw A hne,
      List.take_append_of_le_length (by omega), List.drop_append_of_le_length (by omega), ih hrest, List.cons_append]

end Chunks

/-- Settles O36: the chunks by their offsets, their count and their join. -/
theorem chunksPartitionTheBody : Obligations.ChunksPartitionTheBody := by
  intro w B hw
  refine ⟨?_, chunks_flatten hw, chunks_length hw, fun i hi => ⟨?_, chunk_full hw⟩⟩
  · rintro signed v rfl
    exact ⟨rfl, by rw [samplesOf, List.length_map, chunks_length hw]⟩
  · rw [chunks_getElem? hw, if_pos ((lt_chunks_length_iff hw).mp hi)]

/-! ### The samples of a body, chunk by chunk -/

section Samples

variable (signed : Bool) {w : BitVec 3}

@[simp] theorem samplesOf_nil (w : BitVec 3) : samplesOf signed w [] = [] := rfl

theorem samplesOf_of_length_le {C : List Byte} (hC : C ≠ []) (hle : C.length ≤ w.toNat) :
    samplesOf signed w C = [sampleOf signed C] := by
  rw [samplesOf, chunks_of_length_le hC hle, List.map_singleton]

theorem samplesOf_append {q : Nat} {A : List Byte} (hw : 0 < w.toNat) (hA : A.length = w.toNat * q) (C : List Byte) :
    samplesOf signed w (A ++ C) = samplesOf signed w A ++ samplesOf signed w C := by
  rw [samplesOf, chunks_append hw hA, List.map_append]
  rfl

/-- A full chunk gives one sample, and the rest of the body is cut anew. -/
theorem samplesOf_chunk_append {C : List Byte} (hC : C ≠ []) (hfull : C.length = w.toNat) (B : List Byte) :
    samplesOf signed w (C ++ B) = sampleOf signed C :: samplesOf signed w B := by
  have hw : 0 < w.toNat := hfull ▸ List.length_pos_iff.mpr hC
  rw [samplesOf_append signed hw (hfull.trans (Nat.mul_one _).symm), samplesOf_of_length_le signed hC hfull.le,
    List.singleton_append]

end Samples

/-- Settles O37: the body is whole chunks and the remaining k mod w bytes, which make one chunk. -/
theorem shortFinalChunkStandsAlone : Obligations.ShortFinalChunkStandsAlone := by
  intro signed w B hw _ hrest
  have hlt : B.length % w.toNat < w.toNat := Nat.mod_lt _ hw
  have hsplit := Nat.div_add_mod B.length w.toNat
  generalize B.length % w.toNat = r at *
  have hfull : (B.take (B.length - r)).length = w.toNat * (B.length / w.toNat) := by rw [List.length_take]; omega
  have hlength : (B.drop (B.length - r)).length = r := by rw [List.length_drop]; omega
  have hne : B.drop (B.length - r) ≠ [] := List.ne_nil_of_length_pos (by omega)
  refine ⟨samplesOf signed w (B.take (B.length - r)), ?_⟩
  calc samplesOf signed w B
      = samplesOf signed w (B.take (B.length - r) ++ B.drop (B.length - r)) := by rw [List.take_append_drop]
    _ = samplesOf signed w (B.take (B.length - r)) ++ [sampleOf signed (B.drop (B.length - r))] := by
      rw [samplesOf_append signed hw hfull, samplesOf_of_length_le signed hne (by omega)]
    _ = _ := by rw [sampleOf, hlength]

/-! ### The value of a chunk -/

/-- R134: a chunk's bits as a 32-bit sample, sign- or zero-extended. -/
def extended (signed : Bool) {n : Nat} (v : BitVec n) : Word := if signed then v.signExtend 32 else v.setWidth 32

@[simp] theorem extended_word (signed : Bool) (v : Word) : extended signed v = v := by cases signed <;> simp [extended]

/-- R134: the sample of a chunk is the bit vector of the chunk's own width that has its value, extended. -/
theorem sampleValue_eq_extended (signed : Bool) {n : Nat} {C : List Byte} (v : BitVec n) (hn : n = 8 * C.length)
    (hv : v.toNat = leValue C) : sampleValue signed C = extended signed v := by
  subst hn
  rw [sampleValue, ← hv, BitVec.ofNat_toNat, BitVec.setWidth_eq, extended, BitVec.ofNat_toNat]

theorem sampleOf_eq_extended (signed : Bool) {n : Nat} {C : List Byte} (v : BitVec n) (hn : n = 8 * C.length)
    (hv : v.toNat = leValue C) : sampleOf signed C = (extended signed v, BitVec.ofNat 3 C.length) := by
  rw [sampleOf, sampleValue_eq_extended signed v hn hv]

/-- R134: `u = Σ_{j<m} C[j] << (8·j)`. -/
theorem leValue_eq_sum (C : List Byte) :
    leValue C = ((List.range C.length).map fun j => (C.getD j 0).toNat * 2 ^ (8 * j)).sum := by
  induction C with
  | nil => rfl
  | cons b bs ih =>
    have hshift : ∀ j, ((b :: bs).getD (j + 1) 0).toNat * 2 ^ (8 * (j + 1)) =
        256 * ((bs.getD j 0).toNat * 2 ^ (8 * j)) := fun j => by
      rw [List.getD_cons_succ, Nat.mul_succ, pow_add]; ring
    rw [leValue, ih, List.length_cons, List.range_succ_eq_map, List.map_cons, List.sum_cons, List.map_map,
      ← List.sum_map_mul_left]
    simp only [Function.comp_def, Nat.succ_eq_add_one, hshift]
    simp

/-- A chunk's value fits the chunk's own bits. -/
theorem leValue_lt_two_pow (C : List Byte) : leValue C < 2 ^ (8 * C.length) := by
  rw [pow_mul]
  exact leValue_lt C

theorem sampleValue_unsigned_toNat {C : List Byte} (h : C.length ≤ 4) : (sampleValue false C).toNat = leValue C :=
  Nat.mod_eq_of_lt ((leValue_lt_two_pow C).trans_le (Nat.pow_le_pow_right Nat.two_pos (by omega)))

/-- R134: the signed sample is the two's complement value of the chunk's own bits. -/
theorem sampleValue_signed_toInt {C : List Byte} (hpos : 1 ≤ C.length) (h : C.length ≤ 4) :
    (sampleValue true C).toInt =
      if leValue C < 2 ^ (8 * C.length - 1) then (leValue C : Int) else (leValue C : Int) - 2 ^ (8 * C.length) := by
  have htop : 2 ^ (8 * C.length) = 2 * 2 ^ (8 * C.length - 1) := by rw [← pow_succ']; congr 1; omega
  rw [sampleValue, if_pos rfl, BitVec.toInt_signExtend_of_le (by omega), BitVec.toInt_eq_toNat_cond, BitVec.toNat_ofNat,
    Nat.mod_eq_of_lt (leValue_lt_two_pow C)]
  congr 1
  rw [htop]
  exact propext (Nat.mul_lt_mul_left Nat.two_pos)

/-- Four bytes fill the sample, so their sign makes no difference. -/
theorem sampleValue_of_four {C : List Byte} (h : C.length = 4) (signed : Bool) :
    sampleValue signed C = BitVec.ofNat 32 (leValue C) := by
  have hlt := leValue_lt_two_pow C
  rw [h] at hlt
  rw [sampleValue_eq_extended signed (BitVec.ofNat 32 (leValue C)) (by rw [h]) (Nat.mod_eq_of_lt hlt), extended_word]

/-- Settles O38: the sum is `leValue`, which the chunk's bits hold. -/
theorem sampleValueIsExtendedChunk : Obligations.SampleValueIsExtendedChunk := by
  intro C hpos hle
  simp only [← leValue_eq_sum]
  exact ⟨sampleValue_unsigned_toNat hle, sampleValue_signed_toInt hpos hle, fun h => by
    rw [sampleValue_of_four h, sampleValue_of_four h]⟩

/-! ### Chunks of one to four bytes -/

section Bytes

variable (signed : Bool) (a b c d : Byte)

/-- A byte below the bits of the later bytes is a byte before them in the chunk. -/
theorem toNat_append_byte {n : Nat} {v : BitVec n} {C : List Byte} (hv : v.toNat = leValue C) :
    (v ++ a).toNat = leValue (a :: C) := by
  rw [BitVec.toNat_append, ← Nat.shiftLeft_add_eq_or_of_lt a.isLt, Nat.shiftLeft_eq, hv, leValue]
  omega

theorem toNat_byte : a.toNat = leValue [a] := rfl

theorem sampleOf_one : sampleOf signed [a] = (extended signed a, 1) :=
  sampleOf_eq_extended signed a rfl (toNat_byte a)

theorem sampleOf_two : sampleOf signed [a, b] = (extended signed (b ++ a), 2) :=
  sampleOf_eq_extended signed (b ++ a) rfl (toNat_append_byte a (toNat_byte b))

theorem sampleOf_three : sampleOf signed [a, b, c] = (extended signed (c ++ b ++ a), 3) :=
  sampleOf_eq_extended signed (c ++ b ++ a) rfl (toNat_append_byte a (toNat_append_byte b (toNat_byte c)))

theorem sampleOf_four : sampleOf signed [a, b, c, d] = (d ++ c ++ b ++ a, 4) := by
  rw [sampleOf_eq_extended signed (d ++ c ++ b ++ a) rfl
    (toNat_append_byte a (toNat_append_byte b (toNat_append_byte c (toNat_byte d)))), extended_word]
  rfl

end Bytes

/-! ### The samples of each width -/

section Widths

variable (signed : Bool) {w : BitVec 3} (a b c : Byte)

theorem samplesOf_one_byte (hw : 1 ≤ w.toNat) : samplesOf signed w [a] = [(extended signed a, 1)] := by
  rw [samplesOf_of_length_le signed (C := [a]) (List.cons_ne_nil _ _) hw, sampleOf_one]

theorem samplesOf_two_bytes (hw : 2 ≤ w.toNat) : samplesOf signed w [a, b] = [(extended signed (b ++ a), 2)] := by
  rw [samplesOf_of_length_le signed (C := [a, b]) (List.cons_ne_nil _ _) hw, sampleOf_two]

theorem samplesOf_three_bytes (hw : 3 ≤ w.toNat) :
    samplesOf signed w [a, b, c] = [(extended signed (c ++ b ++ a), 3)] := by
  rw [samplesOf_of_length_le signed (C := [a, b, c]) (List.cons_ne_nil _ _) hw, sampleOf_three]

end Widths

/-- Settles O39, byte by byte: each byte is a full chunk. -/
theorem widthOneSamplesAreBytes : Obligations.WidthOneSamplesAreBytes := by
  intro signed B
  induction B with
  | nil => rfl
  | cons b bs ih =>
    calc samplesOf signed 1 (b :: bs)
        = sampleOf signed [b] :: samplesOf signed 1 bs := samplesOf_chunk_append signed (List.cons_ne_nil b []) rfl bs
      _ = (extended signed b, 1) :: samplesOf signed 1 bs := by rw [sampleOf_one]
      _ = _ := by rw [ih]; rfl

/-- Settles O40: a pair is a full chunk. -/
theorem widthTwoSamplesArePairs : Obligations.WidthTwoSamplesArePairs := by
  refine fun signed => ⟨samplesOf_nil signed 2, fun a => samplesOf_one_byte signed a (by decide), fun a b B => ?_⟩
  exact (samplesOf_chunk_append signed (List.cons_ne_nil a [b]) rfl B).trans (by rw [sampleOf_two]; rfl)

/-- Settles O41: a triple is a full chunk. -/
theorem widthThreeSamplesAreTriples : Obligations.WidthThreeSamplesAreTriples := by
  refine fun signed => ⟨samplesOf_nil signed 3, fun a => samplesOf_one_byte signed a (by decide),
    fun a b => samplesOf_two_bytes signed a b (by decide), fun a b c B => ?_⟩
  exact (samplesOf_chunk_append signed (List.cons_ne_nil a [b, c]) rfl B).trans (by rw [sampleOf_three]; rfl)

/-- Settles O42: four bytes are a full chunk, and fill the sample. -/
theorem widthFourSamplesAreWords : Obligations.WidthFourSamplesAreWords := by
  refine fun signed => ⟨samplesOf_nil signed 4, fun a => samplesOf_one_byte signed a (by decide),
    fun a b => samplesOf_two_bytes signed a b (by decide), fun a b c => samplesOf_three_bytes signed a b c (by decide),
    fun a b c d B => ?_⟩
  exact (samplesOf_chunk_append signed (List.cons_ne_nil a [b, c, d]) rfl B).trans (by rw [sampleOf_four])

/-! ### What a depth selects -/

/-- Settles O17: a data header passes the extractor's check, and each range of depths has its row. -/
theorem depthSelectsExtractionClass : Obligations.DepthSelectsExtractionClass := by
  intro depth word field body
  constructor
  · intro htype item
    refine ⟨decodeDepth depth item, by rw [decode, if_pos ((isDataType_iff _).mpr htype)], ?_⟩
    exact ⟨decodeDepth_upTo8 depth item, decodeDepth_upTo16 depth item, decodeDepth_upTo24 depth item,
      decodeDepth_upTo32 depth item, decodeDepth_outOfRange depth item⟩
  · intro htype
    have hcontrol : ¬ isDataType (msgType word) = true := by rw [isDataType_iff]; omega
    rw [decode, if_neg hcontrol]

theorem depthInRange_iff (d : Word) : depthInRange d = true ↔ 1 ≤ d.toNat ∧ d.toNat ≤ 32 := by
  simp [depthInRange, Nat.one_le_iff_ne_zero]

/-- Settles O34: a depth is in range or not. -/
theorem extractFailsExactlyOutOfRange : Obligations.ExtractFailsExactlyOutOfRange := by
  intro signed d B
  refine ⟨fun hout => if_neg ?_, fun hpos hle => if_pos ((depthInRange_iff d).mpr ⟨hpos, hle⟩)⟩
  rw [depthInRange_iff]
  omega

/-- Settles O35: three bits hold the ceiling of a depth in range. -/
theorem widthIsCeilingOfDepthOverEight : Obligations.WidthIsCeilingOfDepthOverEight := by
  intro d hpos hle
  have hceil (w : BitVec 3) : (d.toNat + 7) / 8 = w.toNat → chunkWidth d = w := chunkWidth_eq w
  refine ⟨?_, fun h => hceil 1 ?_, fun h h' => hceil 2 ?_, fun h h' => hceil 3 ?_, fun h => hceil 4 ?_⟩
  · rw [chunkWidth, Nat.shiftRight_eq_div_pow, BitVec.toNat_ofNat, Nat.mod_eq_of_lt (by omega)]
  all_goals simp only [BitVec.ofNat_eq_ofNat, BitVec.toNat_ofNat]; omega

/-! ### The extraction classes as operations -/

theorem dataType_eq_ofNat : ∀ sub : BitVec 2, dataType sub = BitVec.ofNat 3 (4 + sub.toNat) := by decide

/-- R109, R152: the descriptor of an OK data frame, field by field. -/
theorem itemDesc_eq (P : Params) (item : DataItem) (x : XStatus) (w : BitVec 3) :
    itemDesc P item x w =
      ⟨.ok, true, true, BitVec.ofNat 3 (4 + item.sub.toNat), true, item.declLen, x, w, P.codeNone, item.seq⟩ := by
  rw [← dataType_eq_ofNat]
  simp [itemDesc, dataRecord, headerRecord, noHeaderRecord, DecodeRecord.desc]

/-- Settles O32: the four classes are one step, each under its own width. -/
theorem extractionClassesOutputSamples : Obligations.ExtractionClassesOutputSamples := by
  intro depth item s after
  have hafter (w : BitVec 3) : sampleItem Config.params w item s = after w := by
    rw [sampleItem, itemDesc_eq]
    rfl
  have hnext (w : BitVec 3) := congrArg (Host.Outcome.next (φ := Fault) (ρ := Refusal)) (hafter w)
  exact ⟨hnext 1, hnext 2, hnext 3, hnext 4⟩

/-- Settles O33: error entry at the end of the frame. -/
theorem depthErrorOutputsDescriptorAlone : Obligations.DepthErrorOutputsDescriptorAlone := by
  intro depth item s
  have hafter : exec (.extDepthErr depth item) s = .next (depthErrorItem Config.params item s) := rfl
  rw [hafter, depthErrorItem, itemDesc_eq]
  rfl

end Sys2Proof.Machine

/-! The byte-serial machine and the frame operations are one machine (R161): over a whole frame (O45) and over the rest of
a data frame whose fixed bytes are nearly in (O46) they reach the same state, and so the beats of both are `Out` (O43,
O44). The bytes are followed phase by phase: what a frame's remaining bytes do is stated for each phase of R160. -/

namespace Sys2Proof.Machine

/-! ### Bytes up to `f_last` and beats up to `o_last` -/

/-- R83: a byte ends its frame where no byte follows it. -/
theorem acceptBeats_frameBeats_cons (P : Params) (b : Byte) (bs : List Byte) (s : State) :
    acceptBeats P (frameBeats (b :: bs)) s = acceptBeats P (frameBeats bs) (accept P b bs.isEmpty s) := by
  cases bs <;> rfl

/-- R156: a beat ends its frame's output where no beat follows it. -/
theorem markLast_cons_eq (b : Beat) (bs : List Beat) :
    markLast (b :: bs) = { b with last := bs.isEmpty } :: markLast bs := by
  cases bs <;> rfl

theorem emit_emit (as bs : List Beat) (s : State) : emit bs (emit as s) = emit (as ++ bs) s := by simp [emit]

theorem commit_none (s : State) : commit (s, none) = s := by simp [commit, emit]

/-! ### One byte, phase by phase -/

section OneByte

variable (P : Params) (b : Byte) (L : Bool) {s : State}

theorem accept_of_fld1 (h : s.phase = .fld1) : accept P b L s = commit (serialFld1 P b L (countByte L s)) := by
  simp [accept_eq, serialNext, h]

theorem accept_of_body (h : s.phase = .body) : accept P b L s = commit (serialBody b L (countByte L s)) := by
  simp [accept_eq, serialNext, h]

theorem accept_of_samples (h : s.phase = .samples) :
    accept P b L s = commit (serialSamples P.sampleSigned b L (countByte L s)) := by
  simp [accept_eq, serialNext, h]

theorem accept_of_discard (h : s.phase = .discard) : accept P b L s = commit (serialDiscard L (countByte L s)) := by
  simp [accept_eq, serialNext, h]

end OneByte

/-! ### The rest of a frame in DISCARD and in BODY -/

section RestOfFrame

variable (P : Params) {s : State}

/-- R160, DISCARD: the rest of the frame gives no beat and changes no register. -/
theorem acceptBeats_discard {bs : List Byte} (hbs : bs ≠ []) (h : s.phase = .discard) :
    acceptBeats P (frameBeats bs) s = endFrame s := by
  induction bs generalizing s with
  | nil => exact absurd rfl hbs
  | cons b bs ih =>
    rw [acceptBeats_frameBeats_cons, accept_of_discard P b _ h]
    cases bs with
    | nil => exact commit_none (endFrame s)
    | cons b' bs' =>
      rw [ih (List.cons_ne_nil b' bs') rfl]
      exact commit_none (endFrame s)

/-- R160, BODY: each byte of the rest of the frame is one beat. -/
theorem acceptBeats_body {bs : List Byte} (hbs : bs ≠ []) (h : s.phase = .body) :
    acceptBeats P (frameBeats bs) s = emit (markLast (bs.map (bodyBeat · false))) (endFrame s) := by
  induction bs generalizing s with
  | nil => exact absurd rfl hbs
  | cons b bs ih =>
    rw [acceptBeats_frameBeats_cons, accept_of_body P b _ h]
    cases bs with
    | nil => rfl
    | cons b' bs' =>
      rw [ih (List.cons_ne_nil b' bs') rfl]
      exact emit_emit [bodyBeat b false] _ (endFrame s)

/-- R176: an error met at a byte ends in the same state whether the frame ends there or its rest is discarded. -/
theorem acceptBeats_errorEntry (d : Desc) (bs : List Byte) (s : State) :
    acceptBeats P (frameBeats bs) (commit (errorEntry d bs.isEmpty (countByte bs.isEmpty s))) =
      commit (errorEntry d true (endFrame s)) := by
  cases bs with
  | nil => rfl
  | cons b bs => exact acceptBeats_discard P (List.cons_ne_nil b bs) rfl

end RestOfFrame

/-! ### The rest of a frame in SAMPLES -/

/-- One more byte above a chunk's, by value (R134). -/
theorem leValue_concat (C : List Byte) (b : Byte) : leValue (C ++ [b]) = leValue C ||| b.toNat <<< (8 * C.length) := by
  have hsum : leValue (C ++ [b]) = b.toNat <<< (8 * C.length) + leValue C := by
    induction C with
    | nil => simp [leValue]
    | cons c C ih =>
      rw [List.cons_append, leValue, ih, leValue, List.length_cons, Nat.shiftLeft_eq, Nat.shiftLeft_eq, Nat.mul_succ,
        pow_add]
      ring
  rw [hsum, Nat.shiftLeft_add_eq_or_of_lt (leValue_lt_two_pow C), Nat.or_comm]

/-- R160: the sample register takes one more byte as the chunk does. -/
theorem accumulate_eq (C : List Byte) (b : Byte) :
    BitVec.ofNat 32 (leValue C) ||| (b.setWidth 32 <<< (8 * C.length)) = BitVec.ofNat 32 (leValue (C ++ [b])) := by
  have hshift : b.setWidth 32 <<< (8 * C.length) = BitVec.ofNat 32 (b.toNat <<< (8 * C.length)) :=
    BitVec.eq_of_toNat_eq (by rw [BitVec.toNat_shiftLeft, BitVec.toNat_setWidth_of_le (by decide), BitVec.toNat_ofNat])
  rw [leValue_concat, BitVec.ofNat_or, hshift]

/-- R160, R134: the sample the register gives is the sample of the chunk it holds. -/
theorem accSample_eq_sampleValue (signed : Bool) {C : List Byte} (h : C.length ≤ 4) :
    accSample signed (BitVec.ofNat 32 (leValue C)) (BitVec.ofNat 3 C.length) = sampleValue signed C := by
  have hcount : (BitVec.ofNat 3 C.length).toNat = C.length := Nat.mod_eq_of_lt (by omega)
  rw [accSample, hcount, BitVec.setWidth_ofNat_of_le (by omega), sampleValue]

/-- R160: in SAMPLES the sample register holds the bytes `C` of a chunk that is not full yet. -/
structure HoldsChunk (s : State) (C : List Byte) : Prop where
  phase : s.phase = .samples
  width : s.w.toNat ≤ 4
  notFull : C.length < s.w.toNat
  count : s.m = BitVec.ofNat 3 C.length
  value : s.acc = BitVec.ofNat 32 (leValue C)

/-- The state once the data frame in flight has ended: nothing is left in the sample register (R160). -/
def endSamples (s : State) : State := endFrame { s with acc := 0, m := 0 }

section Samples

variable (signed : Bool) (b : Byte) {s : State} {C : List Byte}

theorem HoldsChunk.toNat_m (hs : HoldsChunk s C) : s.m.toNat = C.length := by
  have hw := hs.width
  have hlt := hs.notFull
  rw [hs.count]
  exact Nat.mod_eq_of_lt (by omega)

theorem HoldsChunk.count_next (hs : HoldsChunk s C) : s.m + 1 = BitVec.ofNat 3 (C ++ [b]).length := by
  rw [hs.count, List.length_append, BitVec.ofNat_add]
  rfl

theorem HoldsChunk.value_next (hs : HoldsChunk s C) :
    s.acc ||| (b.setWidth 32 <<< (8 * s.m.toNat)) = BitVec.ofNat 32 (leValue (C ++ [b])) := by
  rw [hs.value, hs.toNat_m, accumulate_eq]

theorem HoldsChunk.fills_iff (hs : HoldsChunk s C) : s.m + 1 = s.w ↔ C.length + 1 = s.w.toNat := by
  rw [← BitVec.toNat_inj, toNat_m_add_one (hs.toNat_m ▸ hs.notFull), hs.toNat_m]

/-- Counting a byte does not touch the sample register. -/
theorem HoldsChunk.countByte (hs : HoldsChunk s C) (L : Bool) : HoldsChunk (countByte L s) C :=
  ⟨hs.phase, hs.width, hs.notFull, hs.count, hs.value⟩

/-- The byte that fills the chunk, or ends the frame, gives the chunk's sample. -/
theorem HoldsChunk.serialSamples_emits (hs : HoldsChunk s C) (L : Bool) (hends : C.length + 1 = s.w.toNat ∨ L = true) :
    serialSamples signed b L s =
      ({ s with phase := if L then .idle else .samples, acc := 0, m := 0 },
        some (sampleBeat (sampleOf signed (C ++ [b])) L)) := by
  have hlength : (C ++ [b]).length ≤ 4 := by
    have hw := hs.width
    have hlt := hs.notFull
    rw [List.length_append, List.length_singleton]
    omega
  rw [sampleOf, ← accSample_eq_sampleValue signed hlength, ← hs.value_next b, ← hs.count_next b]
  exact if_pos (hends.imp_left hs.fills_iff.mpr)

/-- A byte that leaves the chunk short gives no beat. -/
theorem HoldsChunk.serialSamples_silent (hs : HoldsChunk s C) (hshort : C.length + 1 ≠ s.w.toNat) :
    serialSamples signed b false s =
      ({ s with acc := BitVec.ofNat 32 (leValue (C ++ [b])), m := BitVec.ofNat 3 (C ++ [b]).length }, none) := by
  have hgoes : ¬ (s.m + 1 = s.w ∨ false = true) := not_or_intro (hs.fills_iff.not.mpr hshort) Bool.false_ne_true
  rw [← hs.value_next b, ← hs.count_next b]
  exact (if_neg hgoes).trans (by simp [hs.phase])

end Samples

theorem sampleBeats_ne_nil (signed : Bool) {w : BitVec 3} (hw : 0 < w.toNat) {B : List Byte} (hB : B ≠ []) :
    (samplesOf signed w B).map (sampleBeat · false) ≠ [] := by
  simp [samplesOf, chunks_step _ hw B hB]

/-- R160, SAMPLES: the bytes in the register and the rest of the frame are cut into chunks, each one beat. -/
theorem acceptBeats_samples (P : Params) {bs C : List Byte} {s : State} (hbs : bs ≠ []) (hs : HoldsChunk s C) :
    acceptBeats P (frameBeats bs) s =
      emit (markLast ((samplesOf P.sampleSigned s.w (C ++ bs)).map (sampleBeat · false))) (endSamples s) := by
  induction bs generalizing s C with
  | nil => exact absurd rfl hbs
  | cons b bs ih =>
    have hne : C ++ [b] ≠ [] := List.append_ne_nil_of_right_ne_nil C (List.cons_ne_nil b [])
    have hlength : (C ++ [b]).length = C.length + 1 := List.length_append
    have hnotFull := hs.notFull
    rw [acceptBeats_frameBeats_cons, accept_of_samples P b _ hs.phase]
    cases bs with
    | nil =>
      rw [List.isEmpty_nil, (hs.countByte true).serialSamples_emits P.sampleSigned b true (.inr rfl),
        samplesOf_of_length_le _ hne (by omega)]
      rfl
    | cons b' bs' =>
      have hrest : b' :: bs' ≠ [] := List.cons_ne_nil b' bs'
      rw [List.append_cons, List.isEmpty_cons]
      by_cases hfull : C.length + 1 = s.w.toNat
      · have hmore := sampleBeats_ne_nil P.sampleSigned (Nat.zero_lt_of_lt hnotFull) hrest
        rw [(hs.countByte false).serialSamples_emits P.sampleSigned b false (.inl hfull)]
        refine Eq.trans (ih hrest (C := []) ?_) ?_
        · exact ⟨rfl, hs.width, Nat.zero_lt_of_lt hnotFull, rfl, rfl⟩
        · rw [samplesOf_chunk_append _ hne (hlength.trans hfull), List.map_cons, markLast_cons _ _ hmore]
          exact emit_emit [_] _ (endSamples s)
      · have hlt : (C ++ [b]).length < s.w.toNat := hlength ▸ Nat.lt_of_le_of_ne hnotFull hfull
        rw [(hs.countByte false).serialSamples_silent P.sampleSigned b hfull, commit_none]
        exact ih hrest (C := C ++ [b]) ⟨hs.phase, hs.width, hlt, rfl, rfl⟩

/-! ### The rest of a frame from its last fixed byte -/

/-- The data item of a frame with header `word`, as the decoder hands it to the extractor (R141). -/
def dataItemOf (word seq : Half) (body : List Byte) : DataItem :=
  ⟨(msgType word).setWidth 2, declaredLength word, seq, body⟩

theorem dataItemOf_headerWord (sub : BitVec 2) (len : BitVec 13) (seq : Half) (body : List Byte) :
    dataItemOf (headerWord (dataType sub) len) seq body = ⟨sub, len, seq, body⟩ := by simp [dataItemOf]

theorem decode_extract (depth : Word) {word : Half} (seq : Half) (body : List Byte)
    (ht : isDataType (msgType word) = true) :
    decode (.extract depth word seq body) = .ok (decodeDepth depth (dataItemOf word seq body)) := if_pos ht

section FromFld1

variable (P : Params) (hi : Byte) (body : List Byte) {s : State}

/-- R101, R152: a decode record reports no byte of the body, so the one made at the last fixed byte gives the item's
descriptor. -/
theorem dataRecord_desc_eq_itemDesc {word : Half} (ht : isDataType (msgType word) = true) (seq : Half) (x : XStatus)
    (w : BitVec 3) :
    (dataRecord P word seq []).desc x w =
      itemDesc P (dataItemOf word seq body) x w := by
  rw [itemDesc, dataItemOf, dataType_of_isDataType _ ht, headerWord_fields]
  rfl

theorem controlRecord_desc_nil (word code : Half) :
    (controlRecord P word code []).desc .none 0 = (controlRecord P word code body).desc .none 0 := by
  unfold controlRecord
  split <;> rfl

/-- R153, R160: the descriptor of a control frame at its last fixed byte, then a beat for each byte of the body. -/
theorem acceptBeats_after_desc_body (d : Desc) (s : State) :
    acceptBeats P (frameBeats body)
        (commit ({ countByte body.isEmpty s with phase := if body.isEmpty then .idle else .body },
          some (descBeat d body.isEmpty))) =
      emit (frameBeatsOut d (body.map (bodyBeat · false))) (endFrame s) := by
  cases body with
  | nil => rfl
  | cons b bs =>
    exact (acceptBeats_body P (List.cons_ne_nil b bs) rfl).trans (emit_emit [descBeat d false] _ (endFrame s))

/-- R154, R160: the descriptor of a data frame at its last fixed byte, then a beat for each chunk of the body. -/
theorem acceptBeats_after_desc_samples (d : Desc) {w : BitVec 3} (hw : 1 ≤ w.toNat ∧ w.toNat ≤ 4) (s : State) :
    acceptBeats P (frameBeats body)
        (commit ({ countByte body.isEmpty s with
            w := w, acc := 0, m := 0, phase := if body.isEmpty then .idle else .samples },
          some (descBeat d body.isEmpty))) =
      emit (frameBeatsOut d ((samplesOf P.sampleSigned w body).map (sampleBeat · false)))
        (endSamples { s with w := w }) := by
  cases body with
  | nil => rfl
  | cons b bs =>
    refine Eq.trans (acceptBeats_samples P (C := []) (List.cons_ne_nil b bs) ?_) ?_
    · exact ⟨rfl, hw.2, hw.1, rfl, rfl⟩
    · rw [frameBeatsOut, markLast_cons _ _ (sampleBeats_ne_nil P.sampleSigned hw.1 (List.cons_ne_nil b bs))]
      exact emit_emit [descBeat d false] _ (endSamples { s with w := w })

/-- R154, R160: under a depth in range the rest of a data frame goes out as its samples. -/
theorem acceptBeats_fld1_samples (h : s.phase = .fld1) (ht : isDataType (msgType s.word) = true)
    (hdepth : depthInRange s.dLat = true) :
    acceptBeats P (frameBeats (hi :: body)) s =
      sampleItem P (chunkWidth s.dLat) (dataItemOf s.word (le16 s.fldLo hi) body) s := by
  have hbyte (L : Bool) : serialFld1 P hi L (countByte L s) = _ := (if_pos ht).trans (if_pos hdepth)
  rw [acceptBeats_frameBeats_cons, accept_of_fld1 P hi _ h, hbyte, sampleItem,
    ← dataRecord_desc_eq_itemDesc P body ht]
  exact acceptBeats_after_desc_samples P body _ (chunkWidth_range hdepth) s

/-- R140, R160: a depth out of range is an error of the frame. -/
theorem acceptBeats_fld1_depthErr (h : s.phase = .fld1) (ht : isDataType (msgType s.word) = true)
    (hdepth : depthInRange s.dLat = false) :
    acceptBeats P (frameBeats (hi :: body)) s =
      depthErrorItem P (dataItemOf s.word (le16 s.fldLo hi) body) s := by
  have hbyte (L : Bool) : serialFld1 P hi L (countByte L s) = _ :=
    (if_pos ht).trans (if_neg (Bool.eq_false_iff.mp hdepth))
  rw [acceptBeats_frameBeats_cons, accept_of_fld1 P hi _ h, hbyte, depthErrorItem,
    ← dataRecord_desc_eq_itemDesc P body ht]
  exact acceptBeats_errorEntry P _ body s

/-- R160, FLD1 of a data frame: what its last fixed byte and its body do is extraction under the latched depth. -/
theorem acceptBeats_fld1_data (h : s.phase = .fld1) (ht : isDataType (msgType s.word) = true) :
    acceptBeats P (frameBeats (hi :: body)) s =
      extractItem P s.dLat (dataItemOf s.word (le16 s.fldLo hi) body) s := by
  cases hdepth : depthInRange s.dLat with
  | true => rw [extractItem_inRange _ _ _ _ hdepth, acceptBeats_fld1_samples P hi body h ht hdepth]
  | false => rw [extractItem_outOfRange _ _ _ _ hdepth, acceptBeats_fld1_depthErr P hi body h ht hdepth]

/-- R160, FLD1 of a control frame: what its last fixed byte and its body do is the code check, then BODY or DISCARD. -/
theorem acceptBeats_fld1_control (h : s.phase = .fld1) (ht : isDataType (msgType s.word) = false) :
    acceptBeats P (frameBeats (hi :: body)) s = controlItem P s.word (le16 s.fldLo hi) body (endFrame s) := by
  have hbyte (L : Bool) : serialFld1 P hi L (countByte L s) = serialControl P (le16 s.fldLo hi) L (countByte L s) :=
    if_neg (Bool.eq_false_iff.mp ht)
  rw [acceptBeats_frameBeats_cons, accept_of_fld1 P hi _ h, hbyte]
  simp only [serialControl, controlItem, countByte_word, controlRecord_desc_nil P body]
  split
  next hcode =>
    rw [controlRecord_known P _ _ body hcode]
    exact acceptBeats_after_desc_body P body _ s
  next => exact acceptBeats_errorEntry P _ body s

end FromFld1

/-! ### The fixed bytes -/

/-- The block once it has a frame's first byte (R160, HDR1). -/
def atHdr1 (lo : Byte) (s : State) : State := { s with phase := .hdr1, idx := s.idx + 1, dLat := s.cfg, hdrLo := lo }

/-- The block once it has a frame's header (R160, FLD0). -/
def atFld0 (word : Half) (s : State) : State :=
  { s with phase := .fld0, idx := s.idx + 2, dLat := s.cfg, hdrLo := loByte word, word := word }

/-- The block once it has all but the last fixed byte of a frame (R160, FLD1). -/
def atFld1 (word : Half) (lo : Byte) (s : State) : State :=
  { s with phase := .fld1, idx := s.idx + 3, dLat := s.cfg, hdrLo := loByte word, word := word, fldLo := lo }

section FixedBytes

variable (P : Params) (word : Half) (lo : Byte) (s : State)

theorem accept_idle_open (h : s.phase = .idle) : accept P lo false s = atHdr1 lo s := by
  rw [accept_of_idle P lo false s h]
  exact commit_none _

theorem accept_atHdr1_open : accept P (hiByte word) false (atHdr1 (loByte word) s) = atFld0 word s := by
  have hbyte : accept P (hiByte word) false (atHdr1 (loByte word) s) =
      { atFld0 word s with word := le16 (loByte word) (hiByte word) } := commit_none _
  rw [hbyte, le16_loByte_hiByte]
  rfl

theorem accept_atHdr1_last :
    accept P (hiByte word) true (atHdr1 (loByte word) s) = shortFrame word (latchFrame word .empty s) := by
  have hbyte : accept P (hiByte word) true (atHdr1 (loByte word) s) =
      shortFrame (le16 (loByte word) (hiByte word))
        { latchFrame word .empty s with word := le16 (loByte word) (hiByte word) } := rfl
  rw [hbyte, le16_loByte_hiByte]
  rfl

theorem accept_atFld0_open : accept P lo false (atFld0 word s) = atFld1 word lo s := commit_none _

theorem accept_atFld0_last :
    accept P lo true (atFld0 word s) = shortFrame word (latchFrame word (.part lo) s) := rfl

end FixedBytes

/-! ### Whole frames -/

/-- Extraction starts by ending the frame, so it does the same once the frame has ended (R160). -/
theorem extractItem_endFrame (P : Params) (d : Word) (item : DataItem) (s : State) :
    extractItem P d item (endFrame s) = extractItem P d item s := by
  unfold extractItem
  split <;> rfl

section WholeFrames

variable (P : Params) (len : BitVec 13) {s : State}

/-- A frame without its last fixed byte (R101). -/
theorem acceptBeats_short (word : Half) (tail : Tail) (htail : tail.bytes.length < 2) (hs : s.phase = .idle) :
    acceptBeats P (frameBeats (loByte word :: hiByte word :: tail.bytes)) s =
      shortFrame word (latchFrame word tail s) := by
  rw [acceptBeats_frameBeats_cons, List.isEmpty_cons, accept_idle_open P _ s hs, acceptBeats_frameBeats_cons]
  cases tail with
  | empty => exact accept_atHdr1_last P word s
  | part lo => exact (congrArg _ (accept_atHdr1_open P word s)).trans (accept_atFld0_last P word lo s)
  | fields field body => simp [Tail.bytes] at htail

/-- The first three fixed bytes of a frame that has them all. -/
theorem acceptBeats_to_fld1 (word : Half) (lo hi : Byte) (body : List Byte) (hs : s.phase = .idle) :
    acceptBeats P (frameBeats (loByte word :: hiByte word :: lo :: hi :: body)) s =
      acceptBeats P (frameBeats (hi :: body)) (atFld1 word lo s) := by
  iterate 3 rw [acceptBeats_frameBeats_cons, List.isEmpty_cons]
  rw [accept_idle_open P _ s hs, accept_atHdr1_open, accept_atFld0_open]

/-- R150, R160: the bytes of a control frame do what its operation does, in every phase. -/
theorem acceptBeats_controlFrame (t : BitVec 3) (tail : Tail) (ht : isDataType t = false) :
    acceptBeats P (frameBeats (frameBytes t len tail)) s = controlFrame P t len tail s := by
  by_cases hs : s.phase = .idle
  · rw [controlFrame_idle P t len tail s hs]
    cases tail with
    | empty => exact acceptBeats_short P _ .empty Nat.zero_lt_two hs
    | part lo => exact acceptBeats_short P _ (.part lo) Nat.one_lt_two hs
    | fields code body =>
      calc acceptBeats P (frameBeats (frameBytes t len (.fields code body))) s
          = acceptBeats P (frameBeats (hiByte code :: body)) (atFld1 (headerWord t len) (loByte code) s) :=
            acceptBeats_to_fld1 P (headerWord t len) (loByte code) (hiByte code) body hs
        _ = controlItem P (headerWord t len) (le16 (loByte code) (hiByte code)) body
              (latchFrame (headerWord t len) (.fields code body) s) :=
            acceptBeats_fld1_control P (hiByte code) body rfl ((congrArg isDataType (msgType_headerWord t len)).trans ht)
        _ = _ := by rw [le16_loByte_hiByte]
  · exact (controlFrame_inFlight P t len tail s hs).symm

/-- R150, R160: the bytes of a data frame do what its operation does, in every phase. -/
theorem acceptBeats_dataFrame (sub : BitVec 2) (tail : Tail) :
    acceptBeats P (frameBeats (frameBytes (dataType sub) len tail)) s = dataFrame P sub len tail s := by
  by_cases hs : s.phase = .idle
  · rw [dataFrame_idle P sub len tail s hs]
    cases tail with
    | empty => exact acceptBeats_short P _ .empty Nat.zero_lt_two hs
    | part lo => exact acceptBeats_short P _ (.part lo) Nat.one_lt_two hs
    | fields seq body =>
      have htype : isDataType (msgType (headerWord (dataType sub) len)) = true := by
        rw [msgType_headerWord, isDataType_dataType]
      calc acceptBeats P (frameBeats (frameBytes (dataType sub) len (.fields seq body))) s
          = acceptBeats P (frameBeats (hiByte seq :: body)) (atFld1 (headerWord (dataType sub) len) (loByte seq) s) :=
            acceptBeats_to_fld1 P _ (loByte seq) (hiByte seq) body hs
        _ = extractItem P s.cfg (dataItemOf (headerWord (dataType sub) len) (le16 (loByte seq) (hiByte seq)) body)
              (atFld1 (headerWord (dataType sub) len) (loByte seq) s) :=
            acceptBeats_fld1_data P (hiByte seq) body rfl htype
        _ = extractItem P s.cfg ⟨sub, len, seq, body⟩ (atFld1 (headerWord (dataType sub) len) (loByte seq) s) := by
            rw [le16_loByte_hiByte, dataItemOf_headerWord]
        _ = _ := (extractItem_endFrame P s.cfg _ _).symm
  · exact (dataFrame_inFlight P sub len tail s hs).symm

/-- R150, R161: at a frame boundary the bytes of a frame run it as `Out` says. -/
theorem acceptBeats_frameRun (F : List Byte) (hF : F ≠ []) (hs : s.phase = .idle) :
    FrameRun P F s (acceptBeats P (frameBeats F) s) := by
  match F, hF with
  | [b], _ => exact accept_oneByte_frameRun P s b hs
  | lo :: hi :: rest, _ =>
    rw [← frameBytes_of_bytes lo hi rest]
    cases ht : isDataType (msgType (le16 lo hi)) with
    | true =>
      rw [← dataType_of_isDataType _ ht, acceptBeats_dataFrame]
      exact dataFrame_frameRun P s _ _ _ hs
    | false =>
      rw [acceptBeats_controlFrame P _ _ _ ht]
      exact controlFrame_frameRun P s _ _ _ ht hs

end WholeFrames

/-- Settles O44: one byte alone is SHORT, and a frame with a header does what its operation does. -/
theorem serialMachineEmitsFrameOut : Obligations.SerialMachineEmitsFrameOut := fun P F _ hF hs =>
  have hrun := acceptBeats_frameRun P F hF hs
  ⟨hrun.oq, hrun.phase⟩

/-- Settles O45: the decoder's answer is the frame step of the header's category, which the bytes refine. -/
theorem frameOperationsRefineSerialMachine : Obligations.FrameOperationsRefineSerialMachine := by
  intro F i s hdecode
  match F, hdecode with
  | lo :: hi :: rest, hdecode =>
    rw [decode_frame_cons, Except.ok.injEq] at hdecode
    rw [← hdecode, exec_decodeHeader, ← frameBytes_of_bytes lo hi rest]
    split
    next ht =>
      have hbytes := acceptBeats_dataFrame Config.params (declaredLength (le16 lo hi)) (s := s)
        ((msgType (le16 lo hi)).setWidth 2) (tailOf rest)
      rw [dataType_of_isDataType _ ht] at hbytes
      rw [hbytes]
    next ht => rw [acceptBeats_controlFrame _ _ _ _ (Bool.eq_false_iff.mpr ht)]

/-- Settles O43: by O45 the operation does what its bytes do, and by O44 they run the frame as `Out` says. -/
theorem decodedFrameRunsTheFrameStep : Obligations.DecodedFrameRunsTheFrameStep := by
  intro F i s hdecode hs
  have hF : F ≠ [] := by rintro rfl; cases hdecode
  have hrun := acceptBeats_frameRun Config.params F hF hs
  exact ⟨_, frameOperationsRefineSerialMachine F i s hdecode, hrun.oq, hrun.cfg, hrun.phase⟩

/-- Settles O46: only a data header has an extraction class, and the class extracts under the latched depth. -/
theorem extractionRefinesSerialMachine : Obligations.ExtractionRefinesSerialMachine := by
  intro hi body i s hs hdecode
  cases ht : isDataType (msgType s.word) with
  | true =>
    rw [decode_extract s.dLat _ body ht, Except.ok.injEq] at hdecode
    rw [← hdecode, exec_decodeDepth, acceptBeats_fld1_data _ hi body hs ht]
  | false => simp [decode, ht] at hdecode

end Sys2Proof.Machine

/-! Configuration port C (spec/43_output_and_config.md R157 to R159): what an access does (O1, O2) and that it never waits
(O8). -/

namespace Sys2Proof.Machine

/-- Settles O1: the access is `writeReg`, whose two cases are those of the statement. -/
theorem cfgWriteStoresOrIgnores : Obligations.CfgWriteStoresOrIgnores := fun off v s => exec_cfgWr off v s

/-- Settles O2: the value returned is `readReg`'s. -/
theorem cfgReadReturnsRegister : Obligations.CfgReadReturnsRegister := fun off s => exec_cfgRd off s

/-- The operation an access on port C carries (R157, R158). -/
theorem decode_config (write : Bool) (off : BitVec 8) (v : Word) :
    decode (.config write off v) = .ok (if write then .cfgWr off v else .cfgRd off) := by
  cases write <;> rfl

/-- R159: a config turn takes the access at the head of port C and runs it. -/
theorem step_config (s : State) (ts : List Turn) (a : CAccess) (as : List CAccess) (hturns : s.turns = .config :: ts)
    (hcIn : s.cIn = a :: as) :
    step s = exec (if a.write then .cfgWr a.addr a.wdata else .cfgRd a.addr) { s with turns := ts, cIn := as } := by
  have hfetch : fetch s = .op (.config a.write a.addr a.wdata) { s with turns := ts, cIn := as } :=
    (fetch_cons s _ ts hturns).trans (fetchConfig_cons { s with turns := ts } a as hcIn)
  rw [step_of_fetch_op s _ _ hfetch, runTransfer_ok _ _ _ (decode_config a.write a.addr a.wdata)]

/-- Settles O8: the turn runs the access, a write as O1 says and a read as O2 says. -/
theorem configTurnNeverWaits : Obligations.ConfigTurnNeverWaits := by
  intro s ts a as hturns hcIn
  rw [step_config s ts a as hturns hcIn]
  cases a.write with
  | true => exact cfgWriteStoresOrIgnores a.addr a.wdata { s with turns := ts, cIn := as }
  | false => exact cfgReadReturnsRegister a.addr { s with turns := ts, cIn := as }

end Sys2Proof.Machine

/-! Output beats (spec/43_output_and_config.md R152 to R156): where a descriptor's fields stand (O11), the order and the
marks of a frame's beats (O24), and the frames that output a payload (O26, O30). -/

namespace Sys2Proof.Machine

/-- Settles O11, field by field. -/
theorem descriptorPacksFieldsAtTheirBits : Obligations.DescriptorPacksFieldsAtTheirBits :=
  ⟨⟨rfl, rfl, rfl⟩, ⟨rfl, rfl, rfl⟩, fun d =>
    ⟨pack_status d, pack_hdrValid d, pack_isData d, pack_type d, pack_seqValid d, pack_declLen d, pack_xStatus d,
      pack_bit23 d, pack_w d, pack_bits27to31 d, pack_code d, pack_seq d⟩⟩

/-! ### The order and the marks of a frame's beats -/

/-- R156: marking the final beat does not change what kind a beat is. -/
theorem map_kind_markLast (bs : List Beat) : (markLast bs).map (·.kind) = bs.map (·.kind) := by
  induction bs with
  | nil => rfl
  | cons b bs ih => rw [markLast_cons_eq, List.map_cons, ih, List.map_cons]

/-- R153, R154: no payload beat is a descriptor. -/
theorem kind_of_mem_payloadBeats {P : Params} {d : Word} {D : DecodeRecord} {x : Beat}
    (hx : x ∈ payloadBeats P d D) : x.kind ≠ .desc := by
  unfold payloadBeats at hx
  split at hx
  · obtain ⟨b, -, rfl⟩ := List.mem_map.mp hx
    exact BeatKind.noConfusion
  · obtain ⟨v, -, rfl⟩ := List.mem_map.mp hx
    exact BeatKind.noConfusion
  · cases hx

/-- R156: `o_last` is 1 on the final beat of a run and 0 before it. -/
theorem exists_markLast_eq_concat {bs : List Beat} (hbs : bs ≠ []) :
    ∃ pre b, markLast bs = pre ++ [b] ∧ b.last = true ∧ ∀ x ∈ pre, x.last = false := by
  obtain ⟨init, b, rfl⟩ := (List.eq_nil_or_concat bs).resolve_left hbs
  refine ⟨_, _, by rw [List.concat_eq_append, markLast_concat], rfl, fun x hx => ?_⟩
  obtain ⟨y, -, rfl⟩ := List.mem_map.mp hx
  rfl

/-- Settles O24: `Out` is a descriptor and payload, marked as one run. -/
theorem outputIsDescriptorFirstLastOnce : Obligations.OutputIsDescriptorFirstLastOnce := by
  intro P d F
  obtain ⟨desc, hout⟩ := frameOut_eq_frameBeatsOut P d F
  rw [hout, frameBeatsOut]
  refine ⟨⟨_, _, markLast_cons_eq _ _, rfl, fun x hx => ?_⟩, exists_markLast_eq_concat (List.cons_ne_nil _ _)⟩
  have hkind : x.kind ∈ (payloadBeats P d (decodeFrame P F)).map (·.kind) :=
    map_kind_markLast _ ▸ List.mem_map_of_mem hx
  obtain ⟨y, hy, hxy⟩ := List.mem_map.mp hkind
  exact hxy ▸ kind_of_mem_payloadBeats hy

/-! ### Frames that output a payload -/

/-- The state after a frame with its 4 fixed bytes, accepted at a frame boundary, whose beats are `bs`: the registers of
log 23 but for the sample register. -/
def afterFrame (t : BitVec 3) (len : BitVec 13) (field : Half) (bs : List Beat) (s : State) : State :=
  { s with
    dLat := s.cfg
    hdrLo := loByte (headerWord t len)
    word := headerWord t len
    fldLo := loByte field
    idx := 0
    oq := s.oq ++ bs }

section PayloadFrames

variable (P : Params) (t : BitVec 3) (len : BitVec 13) {s : State}

theorem emit_latchFrame (field : Half) (body : List Byte) (bs : List Beat) (hs : s.phase = .idle) :
    emit bs (latchFrame (headerWord t len) (.fields field body) s) = afterFrame t len field bs s := by
  cases s
  cases hs
  rfl

/-- R153: a control frame with a known code. -/
theorem controlFrame_known {code : Half} (body : List Byte) (ht : isDataType t = false)
    (hcode : P.knows code = true) (hs : s.phase = .idle) :
    controlFrame P t len (.fields code body) s =
      afterFrame t len code
        (frameBeatsOut ⟨.ok, true, false, t, false, len, .none, 0, code, 0⟩ (body.map (bodyBeat · false))) s := by
  rw [controlFrame_idle P t len _ s hs, ← emit_latchFrame t len code body _ hs]
  simp [controlItem, hcode, controlRecord_known, headerRecord, noHeaderRecord, DecodeRecord.desc, ht]

/-- R109: the descriptor of a data frame. -/
def dataDesc (sub : BitVec 2) (seq : Half) (x : XStatus) (w : BitVec 3) : Desc :=
  ⟨.ok, true, true, BitVec.ofNat 3 (4 + sub.toNat), true, len, x, w, P.codeNone, seq⟩

/-- R154: a data frame under a depth in range. -/
theorem dataFrame_inRange (sub : BitVec 2) (seq : Half) (body : List Byte) (hdepth : depthInRange s.cfg = true)
    (hs : s.phase = .idle) :
    dataFrame P sub len (.fields seq body) s =
      { afterFrame (dataType sub) len seq
          (frameBeatsOut (dataDesc P len sub seq .ok (chunkWidth s.cfg))
            ((extract P.sampleSigned s.cfg body).2.2.map (sampleBeat · false))) s with
        w := chunkWidth s.cfg
        acc := 0
        m := 0 } := by
  have hsamples : extract P.sampleSigned s.cfg body = _ := if_pos hdepth
  rw [dataFrame_idle P sub len _ s hs, hsamples, ← emit_latchFrame _ len seq body _ hs]
  simp only [extractItem_inRange P s.cfg _ _ hdepth, sampleItem, itemDesc_eq]
  rfl

/-- R140, R154: a data frame under a depth out of range. -/
theorem dataFrame_outOfRange (sub : BitVec 2) (seq : Half) (body : List Byte) (hdepth : depthInRange s.cfg = false)
    (hs : s.phase = .idle) :
    dataFrame P sub len (.fields seq body) s =
      afterErrorFrame (dataType sub) len (loByte seq) (dataDesc P len sub seq .depthErr 0) s := by
  rw [dataFrame_idle P sub len _ s hs]
  simp only [extractItem_outOfRange P s.cfg _ _ hdepth, depthErrorItem, itemDesc_eq]
  exact commit_errorEntry_latchFrame _ len (.fields seq body) _ hs

end PayloadFrames

/-- Settles O26: each of the four rows is the control frame's step with its type. -/
theorem knownControlFrameOutputsItsBody : Obligations.KnownControlFrameOutputsItsBody := by
  intro s len code body hs hcode
  have control (t : BitVec 3) (ht : isDataType t = false) :=
    congrArg (Host.Outcome.next (φ := Fault) (ρ := Refusal)) (controlFrame_known Config.params t len body ht hcode hs)
  exact ⟨control 0 rfl, control 1 rfl, control 2 rfl, control 3 rfl⟩

/-- Settles O30: each of the four rows is the data frame's step with its item number, under a depth in range or not. -/
theorem dataFrameOutputsItsSamples : Obligations.DataFrameOutputsItsSamples := by
  intro s len seq body hs desc latched after
  have data (sub : BitVec 2) : dataFrame Config.params sub len (.fields seq body) s = after (dataType sub) := by
    have htype := dataType_eq_ofNat sub
    cases hdepth : depthInRange s.cfg with
    | true =>
      have hafter : after (dataType sub) = _ := if_pos ((depthInRange_iff s.cfg).mp hdepth)
      rw [dataFrame_inRange _ _ _ _ _ hdepth hs, hafter, dataDesc, ← htype]
      rfl
    | false =>
      have hafter : after (dataType sub) = _ :=
        if_neg fun hin => Bool.eq_false_iff.mp hdepth ((depthInRange_iff s.cfg).mpr hin)
      rw [dataFrame_outOfRange _ _ _ _ _ hdepth hs, hafter, dataDesc, ← htype]
      rfl
  have hnext (sub : BitVec 2) := congrArg (Host.Outcome.next (φ := Fault) (ρ := Refusal)) (data sub)
  exact ⟨hnext 0, hnext 1, hnext 2, hnext 3⟩

end Sys2Proof.Machine

/-! The steps of the block (spec/43_output_and_config.md R162, R163): what a turn fetches and runs (O50, O51), when a byte
waits (O49), that no step stops (O54), and how the downstream drains OQ (O56). -/

namespace Sys2Proof.Machine

/-! ### Fetch and run -/

/-- Settles O50: what is fetched is run, and what decodes is run as decoded. -/
theorem stepRunsDecodedInstruction : Obligations.StepRunsDecodedInstruction := fun s s' x i hfetch hdecode =>
  (step_of_fetch_op s s' x hfetch).trans (runTransfer_ok x s' i hdecode)

/-- Settles O51, by what a frame turn fetches at a frame boundary with port O free. -/
theorem frameTurnFetchesWholeFrame : Obligations.FrameTurnFetchesWholeFrame := fetch_frameTurn

theorem runTransfer_answers_next (x : Transfer) (s : State) : ∃ t, runTransfer x s = .next t := by
  cases hdecode : decode x with
  | ok i => exact runTransfer_ok x s i hdecode ▸ exec_answers_next i s
  | error e => exact ⟨_, runTransfer_error x s e hdecode⟩

/-- Settles O54: a turn comes to an operation, which answers a next state, or to a state. -/
theorem everyStateHasNextState : Obligations.EveryStateHasNextState := by
  intro s
  rw [step_eq_runFetched]
  cases fetch s with
  | op x s' => exact runTransfer_answers_next x s'
  | done s' => exact ⟨s', rfl⟩

/-! ### A byte turn -/

/-- While port O holds a beat, the free buffering decides, and one free value is used up (log 8). -/
theorem roomOnO_of_nonempty (s : State) (h : s.oq ≠ []) :
    roomOnO s = (Config.outputRoom s.instanceNo s.freeIx s.oq.length, { s with freeIx := s.freeIx + 1 }) := by
  simp [roomOnO, h]

/-- R162: a byte whose beat finds port O taken is accepted or stays on the port. -/
theorem acceptByte_of_taken (s : State) (f : FBeat) (fs : List FBeat) (hf : s.fIn = f :: fs)
    (hbeat : (serialNext Config.params f.data f.last s).2 ≠ none) (hoq : s.oq ≠ []) :
    acceptByte s = accept Config.params f.data f.last { s with fIn := fs, freeIx := s.freeIx + 1 } ∨
      acceptByte s = { s with freeIx := s.freeIx + 1 } := by
  obtain ⟨b, hb⟩ := Option.ne_none_iff_exists'.mp hbeat
  have hroom := roomOnO_of_nonempty s hoq
  simp only [acceptByte, hf, hb, hroom]
  cases Config.outputRoom s.instanceNo s.freeIx s.oq.length with
  | true => exact .inl rfl
  | false => exact .inr rfl

/-- Settles O49: a byte finds room at once, or the free buffering decides. -/
theorem byteAcceptedOrLeftOnThePort : Obligations.ByteAcceptedOrLeftOnThePort := by
  intro s f fs hf
  have hroom := acceptByte_of_room s f fs hf
  refine ⟨hroom, ?_⟩
  by_cases h : (serialNext Config.params f.data f.last s).2 = none ∨ s.oq = []
  · exact .inl (hroom h)
  · obtain ⟨hbeat, hoq⟩ := not_or.mp h
    exact .inr (acceptByte_of_taken s f fs hf hbeat hoq)

/-! ### Draining OQ -/

theorem step_take (s : State) (ts : List Turn) (b : Beat) (rest : List Beat) (hturns : s.turns = .take :: ts)
    (hoq : s.oq = b :: rest) :
    step s = .next { s with turns := ts, oq := rest, delivered := s.delivered ++ [b] } := by
  rw [step_eq_runFetched, fetch_cons s .take ts hturns]
  exact congrArg _ (takeBeat_cons { s with turns := ts } b rest hoq)

theorem run_succ_of_step {s t : State} (n : Nat) (h : step s = .next t) :
    Host.Core.run Sys2Proof.core (n + 1) s = Host.Core.run Sys2Proof.core n t := by
  have hcore : Sys2Proof.core.step s = .next t := h
  simp only [Host.Core.run, hcore]

/-- Settles O56, beat by beat: each take moves the head of OQ to the end of the record. -/
theorem takingDrainsTheQueueInOrder : Obligations.TakingDrainsTheQueueInOrder := by
  intro s ts
  generalize hoq : s.oq = bs
  induction bs generalizing s with
  | nil =>
    intro hturns
    cases s
    cases hoq
    cases hturns
    simp [Host.Core.run]
  | cons b bs ih =>
    intro hturns
    have hstep := step_take s (List.replicate bs.length Turn.take ++ ts) b bs hturns hoq
    rw [List.length_cons, run_succ_of_step _ hstep, ih _ rfl rfl]
    simp

end Sys2Proof.Machine

/-! Errors (spec/60_exceptions.md R171 to R173, R175): each error's exact cause, read off the frame's descriptor (O23). `Out` is
that descriptor and a payload, and its two status fields are traced back to the frame's bytes and the depth. -/

namespace Sys2Proof.Machine

/-! ### The descriptor of a frame's output -/

/-- R150, R152: the descriptor of a decoded frame, with the outcome of extraction where the frame is extracted. -/
def outDesc (P : Params) (d : Word) (D : DecodeRecord) : Desc :=
  match D.status, D.isData with
  | .ok, true => D.desc (extract P.sampleSigned d D.body).1 (extract P.sampleSigned d D.body).2.1
  | _, _ => D.desc .none 0

/-- R150: `Out` is the frame's descriptor and its payload. -/
theorem frameOut_eq_outDesc_payloadBeats (P : Params) (d : Word) (F : List Byte) :
    frameOut P d F = frameBeatsOut (outDesc P d (decodeFrame P F)) (payloadBeats P d (decodeFrame P F)) := by
  unfold frameOut outDesc payloadBeats
  generalize decodeFrame P F = D
  obtain ⟨status, _, isData⟩ := D
  match status, isData with
  | .ok, false => rfl
  | .ok, true => rfl
  | .short, _ => rfl
  | .badCode, _ => rfl

section OutDesc

variable (P : Params) (d : Word) (D : DecodeRecord)

@[simp] theorem outDesc_status : (outDesc P d D).status = D.status := by
  unfold outDesc
  split <;> rfl

theorem outDesc_of_extracted (hok : D.status = .ok) (hdata : D.isData = true) :
    outDesc P d D = D.desc (extract P.sampleSigned d D.body).1 (extract P.sampleSigned d D.body).2.1 := by
  simp only [outDesc, hok, hdata]

theorem outDesc_xStatus_of_not_extracted (h : ¬ (D.status = .ok ∧ D.isData = true)) :
    (outDesc P d D).xStatus = .none := by
  unfold outDesc
  split
  next hok hdata => exact absurd ⟨hok, hdata⟩ h
  next => rfl

/-- R131: extraction fails on a depth out of range alone. -/
theorem extract_eq_depthErr_iff (signed : Bool) (B : List Byte) :
    (extract signed d B).1 = .depthErr ↔ depthInRange d = false := by
  cases hdepth : depthInRange d <;> simp [extract, hdepth]

/-- R173: only an extracted frame can raise E_DEPTH. -/
theorem outDesc_xStatus_eq_depthErr_iff :
    (outDesc P d D).xStatus = .depthErr ↔ (D.status = .ok ∧ D.isData = true) ∧ depthInRange d = false := by
  by_cases h : D.status = .ok ∧ D.isData = true
  · rw [outDesc_of_extracted P d D h.1 h.2, and_iff_right h]
    exact extract_eq_depthErr_iff d _ _
  · simp [outDesc_xStatus_of_not_extracted P d D h, h]

/-- R154, R155: a frame in error has no payload. -/
theorem payloadBeats_of_error (h : D.status ≠ .ok ∨ (outDesc P d D).xStatus = .depthErr) : payloadBeats P d D = [] := by
  rcases h with hstatus | hdepth
  · unfold payloadBeats
    split
    next hok _ => exact absurd hok hstatus
    next hok _ => exact absurd hok hstatus
    next => rfl
  · obtain ⟨⟨hok, hdata⟩, hout⟩ := (outDesc_xStatus_eq_depthErr_iff P d D).mp hdepth
    simp only [payloadBeats, hok, hdata, extract, hout, Bool.false_eq_true, if_false, List.map_nil]

end OutDesc

/-! ### The causes of the decode record's status -/

/-- R101: a frame lacks one of its 4 fixed bytes or has them all. -/
theorem length_lt_four_or_eq_cons (F : List Byte) :
    F.length < 4 ∨ ∃ b0 b1 b2 b3 body, F = b0 :: b1 :: b2 :: b3 :: body := by
  match F with
  | [] => simp
  | [_] => simp
  | [_, _] => simp
  | [_, _, _] => simp
  | b0 :: b1 :: b2 :: b3 :: body => exact .inr ⟨b0, b1, b2, b3, body, rfl⟩

/-- R171. -/
theorem decodeFrame_status_of_length_lt_four (P : Params) {F : List Byte} (h : F.length < 4) :
    (decodeFrame P F).status = .short := by
  match F, h with
  | [], _ => rfl
  | [_], _ => rfl
  | [_, _], _ => rfl
  | [_, _, _], _ => rfl

section FixedBytes

variable (P : Params) (b0 b1 b2 b3 : Byte) (body : List Byte)

/-- R41, R62: the type's category, by the header's second byte. -/
theorem isDataType_le16_iff : isDataType (msgType (le16 b0 b1)) = true ↔ 4 ≤ b1.toNat / 32 := by
  rw [isDataType_le16, decide_eq_true_iff]
  omega

theorem decodeFrame_data (h : 4 ≤ b1.toNat / 32) :
    decodeFrame P (b0 :: b1 :: b2 :: b3 :: body) = dataRecord P (le16 b0 b1) (le16 b2 b3) body :=
  if_pos ((isDataType_le16_iff b0 b1).mpr h)

theorem decodeFrame_control (h : b1.toNat / 32 ≤ 3) :
    decodeFrame P (b0 :: b1 :: b2 :: b3 :: body) = controlRecord P (le16 b0 b1) (le16 b2 b3) body :=
  if_neg (by rw [isDataType_le16_iff]; omega)

end FixedBytes

section ControlRecord

variable (P : Params) (word code : Half) (body : List Byte)

/-- R103, R172: a control record reports no error but an unknown code. -/
theorem controlRecord_status : (controlRecord P word code body).status = if P.knows code then .ok else .badCode := by
  unfold controlRecord
  split <;> rfl

theorem controlRecord_isData : (controlRecord P word code body).isData = isDataType (msgType word) := by
  unfold controlRecord
  split <;> rfl

end ControlRecord

/-- R171: the cause of E_SHORT. -/
theorem decodeFrame_status_eq_short_iff (P : Params) (F : List Byte) :
    (decodeFrame P F).status = .short ↔ F.length < 4 := by
  obtain hlen | ⟨b0, b1, b2, b3, body, rfl⟩ := length_lt_four_or_eq_cons F
  · exact iff_of_true (decodeFrame_status_of_length_lt_four P hlen) hlen
  · refine iff_of_false ?_ (by simp)
    by_cases htype : 4 ≤ b1.toNat / 32
    · simp [decodeFrame_data P b0 b1 b2 b3 body htype]
    · rw [decodeFrame_control P b0 b1 b2 b3 body (by omega), controlRecord_status]
      split <;> simp

/-- R172: the cause of E_BADCODE. -/
theorem decodeFrame_status_eq_badCode_iff (P : Params) (F : List Byte) :
    (decodeFrame P F).status = .badCode ↔
      ∃ b0 b1 b2 b3 body, F = b0 :: b1 :: b2 :: b3 :: body ∧ b1.toNat / 32 ≤ 3 ∧ P.knows (le16 b2 b3) = false := by
  constructor
  · intro hbad
    obtain hlen | ⟨b0, b1, b2, b3, body, rfl⟩ := length_lt_four_or_eq_cons F
    · simp [decodeFrame_status_of_length_lt_four P hlen] at hbad
    · by_cases htype : 4 ≤ b1.toNat / 32
      · simp [decodeFrame_data P b0 b1 b2 b3 body htype] at hbad
      · have hcontrol : b1.toNat / 32 ≤ 3 := by omega
        rw [decodeFrame_control P b0 b1 b2 b3 body hcontrol, controlRecord_status] at hbad
        exact ⟨b0, b1, b2, b3, body, rfl, hcontrol, by simpa using hbad⟩
  · rintro ⟨b0, b1, b2, b3, body, rfl, hcontrol, hcode⟩
    simp [decodeFrame_control P b0 b1 b2 b3 body hcontrol, controlRecord_status, hcode]

/-- R109, R173: the frames that are extracted, those in which E_DEPTH can arise. -/
theorem decodeFrame_extracted_iff (P : Params) (F : List Byte) :
    ((decodeFrame P F).status = .ok ∧ (decodeFrame P F).isData = true) ↔
      ∃ b0 b1 b2 b3 body, F = b0 :: b1 :: b2 :: b3 :: body ∧ 4 ≤ b1.toNat / 32 := by
  constructor
  · rintro ⟨hok, hdata⟩
    obtain ⟨b0, b1, b2, b3, hF⟩ := eq_fixed_append_body_of_ok hok
    refine ⟨b0, b1, b2, b3, _, hF, ?_⟩
    by_contra htype
    rw [hF, decodeFrame_control P b0 b1 b2 b3 _ (by omega), controlRecord_isData, isDataType_le16_iff] at hdata
    exact htype hdata
  · rintro ⟨b0, b1, b2, b3, body, rfl, htype⟩
    rw [decodeFrame_data P b0 b1 b2 b3 body htype]
    exact ⟨rfl, (isDataType_le16_iff b0 b1).mpr htype⟩

theorem depthInRange_eq_false_iff (d : Word) : depthInRange d = false ↔ d.toNat = 0 ∨ 32 < d.toNat := by
  rw [← Bool.not_eq_true, depthInRange_iff]
  omega

/-- Settles O23: the status is the decode record's, and the extraction status is an extracted frame's alone. -/
theorem errorsRaisedExactlyByTheirCauses : Obligations.ErrorsRaisedExactlyByTheirCauses := by
  intro P d F
  have hout := frameOut_eq_outDesc_payloadBeats P d F
  rw [frameBeatsOut, markLast_cons_eq] at hout
  refine ⟨_, _, _, hout, ?_, ?_, ?_, fun herror => ?_⟩
  · rw [outDesc_status, decodeFrame_status_eq_short_iff]
  · rw [outDesc_status, decodeFrame_status_eq_badCode_iff]
  · rw [outDesc_xStatus_eq_depthErr_iff, decodeFrame_extracted_iff, depthInRange_eq_false_iff]
    simp only [← exists_and_right, and_assoc]
  · rw [outDesc_status] at herror
    rw [payloadBeats_of_error P d _ herror, markLast_nil]

end Sys2Proof.Machine

/-! Several instances (spec/60_exceptions.md R182, spec/20_memory.md R50): what a step of one leaves alone (O57). Whatever a
frame turn brings, its bytes do what the byte-serial machine does with them (O45, O46), so of port F only that machine's one
byte is left to look at. -/

namespace Sys2Proof.Machine

/-! ### A frame turn's bytes -/

theorem runTransfer_frame (F : List Byte) (s : State) :
    runTransfer (.frame F) s = .next (acceptBeats Config.params (frameBeats F) s) := by
  cases hdecode : decode (.frame F) with
  | ok i => exact (runTransfer_ok _ s i hdecode).trans (frameOperationsRefineSerialMachine F i s hdecode)
  | error e => exact runTransfer_error _ s e hdecode

/-- R150, R160: the bytes of a frame turn, in whatever phase they arrive. -/
theorem runFetched_fetchBytes (F : List Byte) (s : State) :
    runFetched (fetchBytes F s) = .next (acceptBeats Config.params (frameBeats F) s) := by
  unfold fetchBytes
  split
  next => exact runTransfer_frame _ s
  next hi body hphase htype =>
    have hdecode := decode_extract s.dLat (le16 s.fldLo hi) body htype
    exact (runTransfer_ok _ s _ hdecode).trans (extractionRefinesSerialMachine hi body _ s hphase hdecode)
  next => rfl

/-! ### Every step keeps the number (log 20) -/

@[simp] theorem serialFld1_instanceNo (P : Params) (b : Byte) (L : Bool) (s : State) :
    (serialFld1 P b L s).1.instanceNo = s.instanceNo := by
  unfold serialFld1 serialData serialControl
  dsimp only
  split <;> split <;> rfl

@[simp] theorem serialSamples_instanceNo (signed : Bool) (b : Byte) (L : Bool) (s : State) :
    (serialSamples signed b L s).1.instanceNo = s.instanceNo := by
  unfold serialSamples
  dsimp only
  split <;> rfl

@[simp] theorem serialNext_instanceNo (P : Params) (b : Byte) (L : Bool) (s : State) :
    (serialNext P b L s).1.instanceNo = s.instanceNo := by
  unfold serialNext
  cases s.phase with
  | idle => cases L <;> rfl
  | hdr1 => cases L <;> rfl
  | fld0 => cases L <;> rfl
  | fld1 => exact serialFld1_instanceNo P b L s
  | body => rfl
  | samples => exact serialSamples_instanceNo P.sampleSigned b L s
  | discard => rfl

@[simp] theorem accept_instanceNo (P : Params) (b : Byte) (L : Bool) (s : State) :
    (accept P b L s).instanceNo = s.instanceNo := by simp [accept_eq]

@[simp] theorem acceptBeats_instanceNo (P : Params) (fs : List FBeat) (s : State) :
    (acceptBeats P fs s).instanceNo = s.instanceNo := by
  induction fs generalizing s with
  | nil => rfl
  | cons f fs ih => rw [acceptBeats_cons, ih, accept_instanceNo]

@[simp] theorem acceptByte_instanceNo (s : State) : (acceptByte s).instanceNo = s.instanceNo := by
  obtain ⟨-, h⟩ | ⟨n, h⟩ | ⟨f, rest, n, -, h⟩ := acceptByte_cases s <;> simp [h]

@[simp] theorem writeReg_instanceNo (off : BitVec 8) (v : Word) (s : State) :
    (writeReg off v s).instanceNo = s.instanceNo := by
  unfold writeReg
  split <;> rfl

@[simp] theorem takeBeat_instanceNo (s : State) : (takeBeat s).instanceNo = s.instanceNo := by
  unfold takeBeat
  split <;> rfl

theorem fetchFrame_instanceNo (s : State) :
    ∃ t, runFetched (fetchFrame s) = .next t ∧ t.instanceNo = s.instanceNo := by
  obtain ⟨-, h⟩ | ⟨n, h⟩ | ⟨F, rest, n, -, -, h⟩ := fetchFrame_cases s
  · exact ⟨s, by rw [h]; rfl, rfl⟩
  · exact ⟨{ s with freeIx := n }, by rw [h]; rfl, rfl⟩
  · rw [h, runFetched_fetchBytes]
    exact ⟨_, rfl, acceptBeats_instanceNo _ _ _⟩

theorem fetchConfig_instanceNo (s : State) :
    ∃ t, runFetched (fetchConfig s) = .next t ∧ t.instanceNo = s.instanceNo := by
  cases hcIn : s.cIn with
  | nil => exact ⟨s, by rw [fetchConfig_nil s hcIn]; rfl, rfl⟩
  | cons a as =>
    rw [fetchConfig_cons s a as hcIn]
    obtain ⟨write, addr, wdata⟩ := a
    cases write with
    | true => exact ⟨_, rfl, writeReg_instanceNo addr wdata _⟩
    | false => exact ⟨_, rfl, rfl⟩

theorem fetchTurn_instanceNo (turn : Turn) (s : State) :
    ∃ t, runFetched (fetchTurn turn s) = .next t ∧ t.instanceNo = s.instanceNo := by
  cases turn with
  | rst => exact ⟨_, rfl, rfl⟩
  | config => exact fetchConfig_instanceNo s
  | frame => exact fetchFrame_instanceNo s
  | byte => exact ⟨_, rfl, acceptByte_instanceNo s⟩
  | byteWithConfig => exact acceptByte_instanceNo s ▸ fetchConfig_instanceNo (acceptByte s)
  | take => exact ⟨_, rfl, takeBeat_instanceNo s⟩

/-- Log 20: no step changes the number of the block that takes it. -/
theorem step_instanceNo {s t : State} (h : step s = .next t) : t.instanceNo = s.instanceNo := by
  rw [step_eq_runFetched] at h
  cases hturns : s.turns with
  | nil =>
    rw [fetch_nil s hturns] at h
    cases h
    rfl
  | cons turn ts =>
    rw [fetch_cons s turn ts hturns] at h
    obtain ⟨t', hrun, ht⟩ := fetchTurn_instanceNo turn { s with turns := ts }
    cases hrun.symm.trans h
    exact ht

/-! ### A system of instances -/

/-- The step of a system is the step of its block number `k`, or nothing where no block has that number. -/
theorem stepInstance_cases {k : Nat} {sys sys' : List State} (h : stepInstance k sys = .next sys') :
    sys' = sys ∨ ∃ s t, sys[k]? = some s ∧ step s = .next t ∧ sys' = sys.set k t := by
  unfold stepInstance at h
  cases hs : sys[k]? with
  | none =>
    simp only [hs] at h
    cases h
    exact .inl rfl
  | some s =>
    obtain ⟨t, ht⟩ := everyStateHasNextState s
    simp only [hs, ht] at h
    cases h
    exact .inr ⟨s, t, rfl, ht, rfl⟩

/-- Settles O57: only place `k` of the system is written, and the state written there has the number it had. -/
theorem instancesDoNotInterfere : Obligations.InstancesDoNotInterfere := by
  intro k sys sys' h
  obtain rfl | ⟨s, t, hs, hstep, rfl⟩ := stepInstance_cases h
  · exact ⟨fun _ _ => rfl, rfl⟩
  · refine ⟨fun j hj => List.getElem?_set_ne hj.symm, ?_⟩
    obtain ⟨hk, rfl⟩ := List.getElem?_eq_some_iff.mp hs
    rw [List.map_set, step_instanceNo hstep, ← List.map_set, List.set_getElem_self]

end Sys2Proof.Machine

/-! Reset and hazards (spec/70_reset_and_hazards.md R190 to R198): what RESET clears (O4) and keeps (O5), the frame after it
(O7), and the frame that never ends (O48). -/

namespace Sys2Proof.Machine

/-! ### Reset -/

/-- RESET is `resetBlock` in every state, whatever the phase and the ports (R190). -/
theorem exec_reset (s : State) : exec .reset s = .next (resetBlock s) := rfl

/-- Settles O4: the clauses are what `resetBlock` puts in the five fields. -/
theorem resetClearsBlock : Obligations.ResetClearsBlock := fun s =>
  ⟨resetBlock s, exec_reset s, resetBlock_cfg s, resetBlock_oq s, resetBlock_phase s, resetBlock_acc s, resetBlock_m s⟩

/-- Settles O5: the clauses are what `resetBlock` puts in the byte index and keeps of the ports' side. -/
theorem resetKeepsPortsSide : Obligations.ResetKeepsPortsSide := fun s =>
  ⟨resetBlock s, exec_reset s, resetBlock_idx s, resetBlock_fIn s, resetBlock_cIn s, resetBlock_turns s,
    resetBlock_replies s, resetBlock_delivered s⟩

/-- Settles O7: RESET leaves the block in IDLE, so the next bytes are a whole frame to the byte-serial machine (O44), which
adds `Out` under the CFG and to the OQ that RESET has cleared. -/
theorem frameAfterResetIsNewAtDepthZero : Obligations.FrameAfterResetIsNewAtDepthZero := by
  intro s t P F hF hreset
  cases (exec_reset s).symm.trans hreset
  obtain ⟨hoq, -⟩ := serialMachineEmitsFrameOut P F (resetBlock s) hF (resetBlock_phase s)
  rw [hoq, resetBlock_oq, resetBlock_cfg, List.nil_append]

/-! ### Bytes that do not end a frame -/

section OpenByte

variable (P : Params) (b : Byte) (s : State)

/-- After the last fixed byte of an open frame come BODY or SAMPLES, or DISCARD where the code or the depth is refused. -/
theorem serialFld1_open_phase_ne_idle : (serialFld1 P b false s).1.phase ≠ .idle := by
  simp only [serialFld1]
  split
  · simp only [serialData]
    split <;> exact nofun
  · simp only [serialControl]
    split <;> exact nofun

/-- A sample goes on in SAMPLES whether or not the byte has filled it. -/
theorem serialSamples_open_phase_ne_idle (signed : Bool) : (serialSamples signed b false s).1.phase ≠ .idle := by
  simp only [serialSamples]
  split <;> exact nofun

/-- R160: no phase goes to IDLE on a byte without `f_last`. -/
theorem serialNext_open_phase_ne_idle : (serialNext P b false s).1.phase ≠ .idle := by
  unfold serialNext
  cases s.phase with
  | idle => exact nofun
  | hdr1 => exact nofun
  | fld0 => exact nofun
  | fld1 => exact serialFld1_open_phase_ne_idle P b s
  | body => exact nofun
  | samples => exact serialSamples_open_phase_ne_idle b s P.sampleSigned
  | discard => exact nofun

theorem accept_open_phase_ne_idle : (accept P b false s).phase ≠ .idle := by
  rw [accept_eq, commit_phase]
  exact serialNext_open_phase_ne_idle P b (countByte false s)

end OpenByte

theorem openBeats_concat (bs : List Byte) (b : Byte) : openBeats (bs ++ [b]) = openBeats bs ++ [⟨b, false⟩] :=
  List.map_append

/-- Settles O48: one open byte leaves every state in a phase other than IDLE, so the last of them does, wherever those
before it led. -/
theorem unterminatedFrameNeverReturnsToIdle : Obligations.UnterminatedFrameNeverReturnsToIdle := by
  intro P bs s hbs
  rw [← List.dropLast_concat_getLast hbs, openBeats_concat, acceptBeats_append]
  exact accept_open_phase_ne_idle P (bs.getLast hbs) (acceptBeats P (openBeats bs.dropLast) s)

end Sys2Proof.Machine
